-- ==== Sys2Proof/Word.lean ====
section
/-! DEFINITION. The word and byte types (00_scope.md R6, R10): unsigned, 32 and 8 bits; bit 0 is the least
significant (R9). Addition on words is addition mod 2^32 (R11), which is `+` on `BitVec 32`. -/

namespace Sys2Proof

/-- A 32-bit unsigned word (R10). -/
abbrev Word := BitVec 32

/-- An 8-bit unsigned byte (R10). -/
abbrev Byte := BitVec 8

end Sys2Proof
end

