-- ==== Sys2Proof/Config.lean ====
section
/-! DEFINITION. What an implementation fixes (00_scope.md R7) and the free values of the model: constants without
a body, of which nothing can be proved, so that a claim holds whatever they are. -/

namespace Sys2Proof

/-- The OPEN parameter a run can observe: MSG_CAP, the buffer's capacity in bytes, a multiple of 4 with
4 <= MSG_CAP <= 2^31 (R7, R62). It is held as the index of the buffer's last word, MSG_CAP / 4 - 1, so that exactly
the legal capacities can be written down (log 1). -/
structure Params where
  lastWord : BitVec 29
  deriving DecidableEq, Repr

/-- The number of message words, MSG_CAP / 4 (R62). -/
def Params.msgWords (p : Params) : Nat := p.lastWord.toNat + 1

/-- MSG_CAP in bytes (R7, R62). -/
def Params.msgCap (p : Params) : Nat := 4 * p.msgWords

namespace Config

/-- The parameters of `State.reset`: MSG_CAP = 256, the capacity of the spec's own vectors (95_test_vectors.md).
DESIGN CHOICE, log 1: the spec leaves MSG_CAP open; every other state may hold any capacity. -/
def defaultParams : Params := ⟨63#29⟩

/-- FREE VALUE (93_implementation_defined.md U1, 10_state.md R44; log 6): what the buffer memory holds at a message
byte not written since the last reset. The arguments are the number of resets so far and the byte's address, so
that two reads with no write between them agree (20_memory.md R72). -/
opaque powerUpByte : Nat → Nat → Byte

/-- FREE VALUE (log 12): the schedule word W[t - d] for t < d, an element that does not exist. No reachable step
asks for one (42_scheduler.md R146). The arguments are t and d. -/
opaque scheduleBelowZero : Nat → Nat → Word

/-- FREE VALUE (log 12): PADBYTE(i) for i >= N, for which 41_padder.md R123 gives no value. No reachable step asks
for one. -/
opaque paddingPastEnd : Nat → Byte

/-- FREE VALUE (00_scope.md R7; log 17): STEP_CYCLES - 1, so that STEP_CYCLES is at least 1 (R330). -/
opaque stepCyclesPred : Nat

/-- STEP_CYCLES, the clock cycles of one engine step, at least 1 (70_reset_and_hazards.md R330). -/
def stepCycles : Nat := stepCyclesPred + 1

end Config

end Sys2Proof
end

