-- ==== Sys2Proof/Syntax.lean ====
section
/-! DEFINITION. The block's operations: host transactions (format T, 30_encoding.md R90), the engine's phase
(format E, R100), and `Instr`, one constructor per row of spec/opcode_table.json (R107). -/

namespace Sys2Proof

/-- The direction of a transaction (R90): 0 = RD, 1 = WR. -/
inductive Dir where
  | rd
  | wr
  deriving DecidableEq, Repr

/-- One host transaction (R90). `off` is the byte offset in the host offset space; `wdata` counts for WR only. The
word a RD returns, `rdata`, is not part of the request (`State.rdata`). -/
structure Transaction where
  dir   : Dir
  off   : BitVec 32
  wdata : Word
  deriving DecidableEq, Repr

/-- What is decoded: a host transaction (format T) or the engine's phase field (format E). -/
inductive Code where
  | transaction (t : Transaction)
  | enginePhase (phase : BitVec 3)
  deriving DecidableEq, Repr

/-- One constructor per row of spec/opcode_table.json. The bits of an encoding that a rule calls ignored but that
no other field determines (`wdata[31:4]` of a command, `wdata` of a write without effect) are kept as operands, so
that decoding drops none of them; `off[1:0]` names no operand (R69, R91). -/
inductive Instr where
  /-- R231. -/
  | ctrlNop (ignored : BitVec 28)
  /-- R233. -/
  | ctrlStart (ignored : BitVec 28)
  /-- R232; `cmd` is 2 to 15. -/
  | ctrlRsvd (cmd : BitVec 4) (ignored : BitVec 28)
  /-- R234. -/
  | rdCtrl
  /-- R235. -/
  | rdStatus
  /-- R236. -/
  | wrStatus (wdata : Word)
  /-- R238. -/
  | rdLenLo
  /-- R237. -/
  | wrLenLo (wdata : Word)
  /-- R240. -/
  | rdLenHi
  /-- R239. -/
  | wrLenHi (wdata : Word)
  /-- R241. -/
  | rdCapacity
  /-- R242. -/
  | wrCapacity (wdata : Word)
  /-- R243; k = KEY[4:2]. -/
  | rdDigest (k : Fin 8)
  /-- R244; k = KEY[4:2]. -/
  | wrDigest (k : Fin 8) (wdata : Word)
  /-- R245; j = KEY[5:2]. -/
  | rdHex (j : Fin 16)
  /-- R246; j = KEY[5:2]. -/
  | wrHex (j : Fin 16) (wdata : Word)
  /-- R248; m = KEY[30:2]. -/
  | rdMsg (m : BitVec 29)
  /-- R247; m = KEY[30:2]. -/
  | wrMsg (m : BitVec 29) (wdata : Word)
  /-- R249; `word` = KEY[31:2]. -/
  | rdRsvd (word : BitVec 30)
  /-- R250; `word` = KEY[31:2]. -/
  | wrRsvd (word : BitVec 30) (wdata : Word)
  /-- Phase 0, R210. -/
  | engIdle
  /-- Phase 1, R145. -/
  | engSchedLoad
  /-- Phase 2, R146. -/
  | engSchedExpand
  /-- Phase 3, R166. -/
  | engRoundInit
  /-- Phase 4, R167. -/
  | engRound
  /-- Phase 5, R168. -/
  | engFold
  /-- Phases 6 and 7, R103; `low` is phase bit 0. -/
  | engRsvd (low : BitVec 1)
  deriving DecidableEq, Repr

/-- The instruction is a host transaction (format T). -/
def Instr.isHost : Instr → Bool
  | .ctrlNop _ | .ctrlStart _ | .ctrlRsvd _ _ | .rdCtrl | .rdStatus | .wrStatus _ | .rdLenLo | .wrLenLo _
  | .rdLenHi | .wrLenHi _ | .rdCapacity | .wrCapacity _ | .rdDigest _ | .wrDigest _ _ | .rdHex _ | .wrHex _ _
  | .rdMsg _ | .wrMsg _ _ | .rdRsvd _ | .wrRsvd _ _ => true
  | .engIdle | .engSchedLoad | .engSchedExpand | .engRoundInit | .engRound | .engFold | .engRsvd _ => false

/-- The instruction is a read transaction. -/
def Instr.isRead : Instr → Bool
  | .rdCtrl | .rdStatus | .rdLenLo | .rdLenHi | .rdCapacity | .rdDigest _ | .rdHex _ | .rdMsg _ | .rdRsvd _ => true
  | .ctrlNop _ | .ctrlStart _ | .ctrlRsvd _ _ | .wrStatus _ | .wrLenLo _ | .wrLenHi _ | .wrCapacity _
  | .wrDigest _ _ | .wrHex _ _ | .wrMsg _ _ | .wrRsvd _ _
  | .engIdle | .engSchedLoad | .engSchedExpand | .engRoundInit | .engRound | .engFold | .engRsvd _ => false

end Sys2Proof
end

