-- ==== Sys2Proof/WellFormed.lean ====
section
/-! DEFINITION. When an instruction is well formed, for a block of given parameters: its operands are ones the
encoding of its row admits. -/

namespace Sys2Proof

/-- `word` = off[31:2] is one of the offsets that the map of 20_memory.md R73 calls reserved: byte offsets 0x14 to
0x3F, 0x60 to 0x7F, 0xC0 to 0x7FFFFFFF, and 0x80000000 + MSG_CAP upward. -/
def isReservedWord (p : Params) (word : BitVec 30) : Bool :=
  let o := 4 * word.toNat
  decide (0x14 ≤ o ∧ o ≤ 0x3F) || decide (0x60 ≤ o ∧ o ≤ 0x7F) || decide (0xC0 ≤ o ∧ o ≤ 0x7FFFFFFF)
    || decide (0x80000000 + p.msgCap ≤ o)

/-- Well-formedness. A reserved command has CMD >= 2 (30_encoding.md R94); a message word lies in the buffer
(R91: KEY[30:2] * 4 < MSG_CAP); a reserved offset is one no other row matches (R73). -/
def Instr.wf (p : Params) : Instr → Bool
  | .ctrlRsvd cmd _ => decide (2 ≤ cmd.toNat)
  | .rdMsg m | .wrMsg m _ => decide (4 * m.toNat < p.msgCap)
  | .rdRsvd word | .wrRsvd word _ => isReservedWord p word
  | .ctrlNop _ | .ctrlStart _ | .rdCtrl | .rdStatus | .wrStatus _ | .rdLenLo | .wrLenLo _ | .rdLenHi | .wrLenHi _
  | .rdCapacity | .wrCapacity _ | .rdDigest _ | .wrDigest _ _ | .rdHex _ | .wrHex _ _
  | .engIdle | .engSchedLoad | .engSchedExpand | .engRoundInit | .engRound | .engFold | .engRsvd _ => true

end Sys2Proof
end

