-- ==== Sys2Proof/Decode.lean ====
section
/-! DEFINITION. Decoding, from the tables of 30_encoding.md: the offset decode of R92, the command word of R93 and
R94, the phase of R100; the encoder from the same tables; the opcode table itself as rows of match and mask; and the
numbering of an operation's bits that the host's probe uses (log 2). -/

namespace Sys2Proof

/-! ## Format T -/

/-- The direction bit, KEY[32] (R91). -/
def Dir.bit : Dir → BitVec 1
  | .rd => 0#1
  | .wr => 1#1

/-- KEY = {dir, off[31:2], 0b00} (R91). -/
def Transaction.key (t : Transaction) : BitVec 33 := t.dir.bit ++ (t.off.extractLsb' 2 30 ++ 0#2 : BitVec 32)

/-- What an offset names (R92, R73). -/
inductive Region where
  | ctrl
  | status
  | lenLo
  | lenHi
  | capacity
  | digest (k : Fin 8)
  | hex (j : Fin 16)
  | msg (m : BitVec 29)
  | reserved (word : BitVec 30)
  deriving DecidableEq, Repr

/-- The offset decode of R92, row by row, on KEY[31:0]. -/
def region (p : Params) (o : BitVec 32) : Region :=
  if o &&& 0xFFFFFFFC#32 = 0x00000000#32 then .ctrl
  else if o &&& 0xFFFFFFFC#32 = 0x00000004#32 then .status
  else if o &&& 0xFFFFFFFC#32 = 0x00000008#32 then .lenLo
  else if o &&& 0xFFFFFFFC#32 = 0x0000000C#32 then .lenHi
  else if o &&& 0xFFFFFFFC#32 = 0x00000010#32 then .capacity
  else if o &&& 0xFFFFFFE0#32 = 0x00000040#32 then .digest (o.extractLsb' 2 3).toFin
  else if o &&& 0xFFFFFFC0#32 = 0x00000080#32 then .hex (o.extractLsb' 2 4).toFin
  else if o &&& 0x80000000#32 = 0x80000000#32 ∧ 4 * (o.extractLsb' 2 29).toNat < p.msgCap then
    .msg (o.extractLsb' 2 29)
  else .reserved (o.extractLsb' 2 30)

/-- The command word written to CTRL: CMD = wdata[3:0] (R93), its values in R94. -/
def decodeCommand (wdata : Word) : Instr :=
  if wdata.extractLsb' 0 4 = 0x0#4 then .ctrlNop (wdata.extractLsb' 4 28)
  else if wdata.extractLsb' 0 4 = 0x1#4 then .ctrlStart (wdata.extractLsb' 4 28)
  else .ctrlRsvd (wdata.extractLsb' 0 4) (wdata.extractLsb' 4 28)

/-- The read row of a region (R92, column RD). -/
def readRow : Region → Instr
  | .ctrl => .rdCtrl
  | .status => .rdStatus
  | .lenLo => .rdLenLo
  | .lenHi => .rdLenHi
  | .capacity => .rdCapacity
  | .digest k => .rdDigest k
  | .hex j => .rdHex j
  | .msg m => .rdMsg m
  | .reserved word => .rdRsvd word

/-- The write row of a region (R92, column WR). -/
def writeRow (wdata : Word) : Region → Instr
  | .ctrl => decodeCommand wdata
  | .status => .wrStatus wdata
  | .lenLo => .wrLenLo wdata
  | .lenHi => .wrLenHi wdata
  | .capacity => .wrCapacity wdata
  | .digest k => .wrDigest k wdata
  | .hex j => .wrHex j wdata
  | .msg m => .wrMsg m wdata
  | .reserved word => .wrRsvd word wdata

/-- The row a transaction matches (R91, R92). Total: every transaction is one of the 20 host rows. -/
def decodeTransaction (p : Params) (t : Transaction) : Instr :=
  match t.dir with
  | .rd => readRow (region p (t.key.extractLsb' 0 32))
  | .wr => writeRow t.wdata (region p (t.key.extractLsb' 0 32))

/-! ## Format E -/

/-- The operation a phase selects (R100); 6 and 7 are reserved (R103). -/
def decodePhase (phase : BitVec 3) : Instr :=
  if phase = 0#3 then .engIdle
  else if phase = 1#3 then .engSchedLoad
  else if phase = 2#3 then .engSchedExpand
  else if phase = 3#3 then .engRoundInit
  else if phase = 4#3 then .engRound
  else if phase = 5#3 then .engFold
  else .engRsvd (phase.extractLsb' 0 1)

/-- Decoding of both formats. -/
def decode (p : Params) : Code → Instr
  | .transaction t => decodeTransaction p t
  | .enginePhase ph => decodePhase ph

/-! ## The encoder -/

/-- A read transaction (R90: wdata is for WR only; it is written 0). -/
def Code.read (off : BitVec 32) : Code := .transaction ⟨.rd, off, 0#32⟩

/-- A write transaction (R90). -/
def Code.write (off : BitVec 32) (wdata : Word) : Code := .transaction ⟨.wr, off, wdata⟩

/-- The offset of DIGEST_k, 0x040 + 4k (10_state.md R42). -/
def digestOffset (k : Fin 8) : BitVec 32 := BitVec.ofNat 32 (0x040 + 4 * k.val)

/-- The offset of HEX_j, 0x080 + 4j (10_state.md R43). -/
def hexOffset (j : Fin 16) : BitVec 32 := BitVec.ofNat 32 (0x080 + 4 * j.val)

/-- The offset of MSGW[m], MSG_BASE + 4m = 0x80000000 + 4m (20_memory.md R62). -/
def msgOffset (m : BitVec 29) : BitVec 32 := (1#1 ++ m ++ 0#2 : BitVec 32)

/-- The byte offset of the word numbered `word` = off[31:2]. -/
def wordOffset (word : BitVec 30) : BitVec 32 := (word ++ 0#2 : BitVec 32)

/-- The encoding of an instruction, with off[1:0] = 0. -/
def encode : Instr → Code
  | .ctrlNop hi => .write 0x000#32 (hi ++ 0x0#4 : BitVec 32)
  | .ctrlStart hi => .write 0x000#32 (hi ++ 0x1#4 : BitVec 32)
  | .ctrlRsvd cmd hi => .write 0x000#32 (hi ++ cmd : BitVec 32)
  | .rdCtrl => .read 0x000#32
  | .rdStatus => .read 0x004#32
  | .wrStatus w => .write 0x004#32 w
  | .rdLenLo => .read 0x008#32
  | .wrLenLo w => .write 0x008#32 w
  | .rdLenHi => .read 0x00C#32
  | .wrLenHi w => .write 0x00C#32 w
  | .rdCapacity => .read 0x010#32
  | .wrCapacity w => .write 0x010#32 w
  | .rdDigest k => .read (digestOffset k)
  | .wrDigest k w => .write (digestOffset k) w
  | .rdHex j => .read (hexOffset j)
  | .wrHex j w => .write (hexOffset j) w
  | .rdMsg m => .read (msgOffset m)
  | .wrMsg m w => .write (msgOffset m) w
  | .rdRsvd word => .read (wordOffset word)
  | .wrRsvd word w => .write (wordOffset word) w
  | .engIdle => .enginePhase 0#3
  | .engSchedLoad => .enginePhase 1#3
  | .engSchedExpand => .enginePhase 2#3
  | .engRoundInit => .enginePhase 3#3
  | .engRound => .enginePhase 4#3
  | .engFold => .enginePhase 5#3
  | .engRsvd low => .enginePhase (0b11#2 ++ low : BitVec 3)

/-! ## The opcode table as rows -/

/-- What a format T row asks beside its match and mask (R91): nothing, a command, or the message window's range. -/
inductive RowCondition where
  | none
  | command (wdataMatch : Word)
  | commandRest
  | window
  deriving DecidableEq, Repr

/-- One row of spec/opcode_table.json. A format E row has its match and mask over the 3-bit phase. -/
structure OpcodeRow where
  mnemonic  : String
  host      : Bool
  matchBits : BitVec 33
  maskBits  : BitVec 33
  condition : RowCondition
  deriving DecidableEq, Repr

/-- The 20 host rows, in table order (R91: rows are tried in this order, the reserved rows last). -/
def hostRows : List OpcodeRow :=
  [ ⟨"CTRL_NOP", true, 0x100000000#33, 0x1FFFFFFFC#33, .command 0x0#32⟩,
    ⟨"CTRL_START", true, 0x100000000#33, 0x1FFFFFFFC#33, .command 0x1#32⟩,
    ⟨"CTRL_RSVD", true, 0x100000000#33, 0x1FFFFFFFC#33, .commandRest⟩,
    ⟨"RD_CTRL", true, 0x000000000#33, 0x1FFFFFFFC#33, .none⟩,
    ⟨"RD_STATUS", true, 0x000000004#33, 0x1FFFFFFFC#33, .none⟩,
    ⟨"WR_STATUS", true, 0x100000004#33, 0x1FFFFFFFC#33, .none⟩,
    ⟨"RD_LEN_LO", true, 0x000000008#33, 0x1FFFFFFFC#33, .none⟩,
    ⟨"WR_LEN_LO", true, 0x100000008#33, 0x1FFFFFFFC#33, .none⟩,
    ⟨"RD_LEN_HI", true, 0x00000000C#33, 0x1FFFFFFFC#33, .none⟩,
    ⟨"WR_LEN_HI", true, 0x10000000C#33, 0x1FFFFFFFC#33, .none⟩ ] ++
  [ ⟨"RD_CAPACITY", true, 0x000000010#33, 0x1FFFFFFFC#33, .none⟩,
    ⟨"WR_CAPACITY", true, 0x100000010#33, 0x1FFFFFFFC#33, .none⟩,
    ⟨"RD_DIGEST", true, 0x000000040#33, 0x1FFFFFFE0#33, .none⟩,
    ⟨"WR_DIGEST", true, 0x100000040#33, 0x1FFFFFFE0#33, .none⟩,
    ⟨"RD_HEX", true, 0x000000080#33, 0x1FFFFFFC0#33, .none⟩,
    ⟨"WR_HEX", true, 0x100000080#33, 0x1FFFFFFC0#33, .none⟩,
    ⟨"RD_MSG", true, 0x080000000#33, 0x180000000#33, .window⟩,
    ⟨"WR_MSG", true, 0x180000000#33, 0x180000000#33, .window⟩,
    ⟨"RD_RSVD", true, 0x000000000#33, 0x100000000#33, .none⟩,
    ⟨"WR_RSVD", true, 0x100000000#33, 0x100000000#33, .none⟩ ]

/-- The 7 engine rows (R100, R107). -/
def engineRows : List OpcodeRow :=
  [ ⟨"ENG_IDLE", false, 0x0#33, 0x7#33, .none⟩,
    ⟨"ENG_SCHED_LOAD", false, 0x1#33, 0x7#33, .none⟩,
    ⟨"ENG_SCHED_EXPAND", false, 0x2#33, 0x7#33, .none⟩,
    ⟨"ENG_ROUND_INIT", false, 0x3#33, 0x7#33, .none⟩,
    ⟨"ENG_ROUND", false, 0x4#33, 0x7#33, .none⟩,
    ⟨"ENG_FOLD", false, 0x5#33, 0x7#33, .none⟩,
    ⟨"ENG_RSVD", false, 0x6#33, 0x6#33, .none⟩ ]

/-- The key a row is held against: KEY for a transaction (R91), the phase for the engine (R107). -/
def Code.key : Code → BitVec 33
  | .transaction t => t.key
  | .enginePhase ph => ph.setWidth 33

/-- A row's extra condition (R91): (wdata AND 0xF) = wdata_match, any other command, or KEY[30:2] * 4 < MSG_CAP. -/
def RowCondition.holds (p : Params) (c : Code) : RowCondition → Bool
  | .none => true
  | .command v => match c with
    | .transaction t => decide (t.wdata &&& 0xF#32 = v)
    | .enginePhase _ => false
  | .commandRest => match c with
    | .transaction t => decide (t.wdata &&& 0xF#32 ≠ 0x0#32 ∧ t.wdata &&& 0xF#32 ≠ 0x1#32)
    | .enginePhase _ => false
  | .window => decide (4 * (c.key.extractLsb' 2 29).toNat < p.msgCap)

/-- A row matches when (key AND mask) = match and its condition holds (R91). -/
def OpcodeRow.hits (p : Params) (r : OpcodeRow) (c : Code) : Bool :=
  decide (c.key &&& r.maskBits = r.matchBits) && r.condition.holds p c

/-- The rows of a code's format. -/
def rowsOf : Code → List OpcodeRow
  | .transaction _ => hostRows
  | .enginePhase _ => engineRows

/-- The mnemonic of an instruction, as the table spells it. -/
def Instr.mnemonic : Instr → String
  | .ctrlNop _ => "CTRL_NOP"
  | .ctrlStart _ => "CTRL_START"
  | .ctrlRsvd _ _ => "CTRL_RSVD"
  | .rdCtrl => "RD_CTRL"
  | .rdStatus => "RD_STATUS"
  | .wrStatus _ => "WR_STATUS"
  | .rdLenLo => "RD_LEN_LO"
  | .wrLenLo _ => "WR_LEN_LO"
  | .rdLenHi => "RD_LEN_HI"
  | .wrLenHi _ => "WR_LEN_HI"
  | .rdCapacity => "RD_CAPACITY"
  | .wrCapacity _ => "WR_CAPACITY"
  | .rdDigest _ => "RD_DIGEST"
  | .wrDigest _ _ => "WR_DIGEST"
  | .rdHex _ => "RD_HEX"
  | .wrHex _ _ => "WR_HEX"
  | .rdMsg _ => "RD_MSG"
  | .wrMsg _ _ => "WR_MSG"
  | .rdRsvd _ => "RD_RSVD"
  | .wrRsvd _ _ => "WR_RSVD"
  | .engIdle => "ENG_IDLE"
  | .engSchedLoad => "ENG_SCHED_LOAD"
  | .engSchedExpand => "ENG_SCHED_EXPAND"
  | .engRoundInit => "ENG_ROUND_INIT"
  | .engRound => "ENG_ROUND"
  | .engFold => "ENG_FOLD"
  | .engRsvd _ => "ENG_RSVD"

/-! ## An operation's bits as one number (log 2) -/

/-- Why a number is no operation's bits. -/
inductive DecodeError where
  /-- One byte, but a bit above the 3-bit phase is set. -/
  | notAPhase
  /-- More than one byte, but a bit outside KEY (bits 32..0) and wdata (bits 71..40) is set. -/
  | notATransaction
  deriving DecidableEq, Repr

/-- DESIGN CHOICE, log 2: a format E operation is one byte, the phase in bits 2..0. A format T operation is nine
bytes: off in bits 31..0, dir in bit 32, bits 39..33 zero, wdata in bits 71..40; so bits 32..0 stand where
spec/opcode_table.json numbers KEY. -/
def codeOfBits (nbits w : Nat) : Except DecodeError Code :=
  if nbits ≤ 8 then
    if w < 8 then .ok (.enginePhase (BitVec.ofNat 3 w)) else .error .notAPhase
  else if w < 2 ^ 72 ∧ w / 2 ^ 33 % 2 ^ 7 = 0 then
    .ok (.transaction ⟨if w / 2 ^ 32 % 2 = 0 then .rd else .wr, BitVec.ofNat 32 w, BitVec.ofNat 32 (w / 2 ^ 40)⟩)
  else .error .notATransaction

/-- The instruction the decoder reads from the bits `w`, in a block with the parameters of reset. -/
def decodeTableWord (nbits w : Nat) : Option Instr :=
  match codeOfBits nbits w with
  | .ok c => some (decode Config.defaultParams c)
  | .error _ => none

end Sys2Proof
end

