-- ==== Sys2Proof/Machine/State.lean ====
section
/-! DEFINITION. The state of the block (10_state.md R20), the reasons a step can stop, and the state after reset
(70_reset_and_hazards.md R310). -/

namespace Sys2Proof.Machine

/-- The working registers a..h (10_state.md R21). -/
structure Work where
  a : Word
  b : Word
  c : Word
  d : Word
  e : Word
  f : Word
  g : Word
  h : Word
  deriving DecidableEq, Repr

/-- The sequencer state pc = (phase, blk, t) (10_state.md R27): the step the engine performs next. `phase` is the
3-bit operation field of 30_encoding.md R100; `blk` is held as an unbounded natural (R28); `t` is 6 bits. -/
structure Pc where
  phase : BitVec 3
  blk   : Nat
  t     : Fin 64
  deriving DecidableEq, Repr

/-- The STATUS fields (10_state.md R33 to R36). -/
structure Status where
  busy    : Bool
  done    : Bool
  err     : Bool
  errcode : BitVec 4
  deriving DecidableEq, Repr

/-- The errors START can raise (60_exceptions.md R280 to R282). -/
inductive ErrorCause where
  | lengthOverflow
  | lengthCapacity
  deriving DecidableEq, Repr

/-- One event of a run (00_scope.md R14, 70_reset_and_hazards.md R310): a host transaction, a turn of the engine,
or a reset. -/
inductive Event where
  | host (t : Transaction)
  | engine
  | reset
  deriving DecidableEq, Repr

/-- The message buffer (20_memory.md R62, R63): the bytes written since the last reset, by message byte address,
addresses strictly rising. An unlisted byte has not been written (R319, logs 6, 7, 22). -/
abbrev Memory := List Host.Cell

/-- The state: R20's tuple, the parameter MSG_CAP, and the model's own `rdata`, `events` and `resets`. -/
structure State where
  /-- MSG_CAP (00_scope.md R7); no step writes it (log 1). -/
  params : Params
  /-- a..h (R21). -/
  work : Work
  /-- The hash state H[0..7] (R22). -/
  H : Vector Word 8
  /-- The message schedule W[0..63] (R23). -/
  W : Vector Word 64
  /-- (phase, blk, t) (R27). -/
  pc : Pc
  /-- The latched message length in bytes (R29). -/
  Lq : BitVec 64
  /-- The number of blocks (R31). -/
  NB : Nat
  /-- STATUS (R33 to R36). -/
  status : Status
  /-- LEN_LO (R39). -/
  lenLo : Word
  /-- LEN_HI (R40). -/
  lenHi : Word
  /-- The message buffer (R44). -/
  mem : Memory
  /-- The word the last read returned to the host (30_encoding.md R90; the model's own register, log 5). -/
  rdata : Word
  /-- The events still to come, first one next; with none left the engine moves (the model's own, log 3). -/
  events : List Event
  /-- How many resets there have been (the model's own, log 6). -/
  resets : Nat
  deriving DecidableEq, Repr

/-- Why the machine stops. -/
inductive Fault where
  /-- Raised by SCHED_LOAD when it reads a byte below Lq of message word `m`, which has not been written since reset:
  the model fault of 70_reset_and_hazards.md R319. SAFE: the hardware goes on with an unspecified value. -/
  | unwrittenMessageWord (m : Nat)
  deriving DecidableEq, Repr

/-- Why a step has no meaning. -/
inductive Refusal where
  /-- The instruction is not modelled yet. Raised by no arm of this model. SAFE. -/
  | notModelled (mnemonic : String)
  deriving DecidableEq, Repr

/-- The outcome of one step. -/
abbrev Result := Host.Outcome State Fault Refusal

/-- The state right after reset of a block with parameters `p` (70_reset_and_hazards.md R310): phase IDLE, STATUS
and LEN 0, no message word written. The registers R310 leaves unspecified (a..h, H, W, blk, t, Lq, NB) are 0
(DESIGN CHOICE, log 4); `rdata`, `events` and `resets` are the model's own (logs 3, 5, 6). -/
def State.resetWith (p : Params) : State where
  params := p
  work := ⟨0#32, 0#32, 0#32, 0#32, 0#32, 0#32, 0#32, 0#32⟩
  H := Vector.replicate 8 0#32
  W := Vector.replicate 64 0#32
  pc := ⟨0#3, 0, 0⟩
  Lq := 0#64
  NB := 0
  status := ⟨false, false, false, 0#4⟩
  lenLo := 0#32
  lenHi := 0#32
  mem := []
  rdata := 0#32
  events := []
  resets := 0

/-- The state right after reset, for the capacity of `Config.defaultParams` (log 1). -/
def State.reset : State := State.resetWith Config.defaultParams

end Sys2Proof.Machine
end

