-- ==== Sys2Proof/Machine/Flags.lean ====
section
/-! DEFINITION. The flags are the STATUS fields (10_state.md R45): the word they read as, and every change that an
operation makes to them. -/

namespace Sys2Proof.Machine

/-- One flag as a bit. -/
def flagBit (b : Bool) : BitVec 1 := if b then 1#1 else 0#1

/-- STATUS = zext_32({ERRCODE, 0b0, ERR, DONE, BUSY}) (30_encoding.md R95). -/
def Status.word (f : Status) : Word :=
  (f.errcode ++ 0#1 ++ flagBit f.err ++ flagBit f.done ++ flagBit f.busy : BitVec 8).setWidth 32

/-- The code of an error: LENGTH_OVERFLOW = 1, LENGTH_CAPACITY = 2 (30_encoding.md R96, 60_exceptions.md R283). -/
def ErrorCause.code : ErrorCause → BitVec 4
  | .lengthOverflow => 0x1#4
  | .lengthCapacity => 0x2#4

/-- DONE <- 0; ERR <- 0; ERRCODE <- 0: what a START does first while BUSY = 0 (46_host_interface.md R233). -/
def Status.cleared (f : Status) : Status := { f with done := false, err := false, errcode := 0#4 }

/-- ERR <- 1; ERRCODE <- code(E) (60_exceptions.md R283). -/
def Status.failed (f : Status) (e : ErrorCause) : Status := { f with err := true, errcode := e.code }

/-- BUSY <- 1 (46_host_interface.md R233). -/
def Status.begun (f : Status) : Status := { f with busy := true }

/-- BUSY <- 0; DONE <- 1: the end of a computation (43_compressor.md R168). -/
def Status.finished (f : Status) : Status := { f with busy := false, done := true }

end Sys2Proof.Machine
end

