-- ==== Sys2Proof/Machine/WordFns.lean ====
section
/-! DEFINITION. The word functions of 42_scheduler.md R140 to R143 and 43_compressor.md R162 to R165, and the byte
lanes of a word (30_encoding.md R97). -/

namespace Sys2Proof.Machine

/-- rotr(x, n), for 0 < n < 32 (R140). -/
def rotr (x : Word) (n : Nat) : Word := (x >>> n) ||| (x <<< (32 - n))

/-- sigma0 (R142); `>>>` is the logical shift (R141). -/
def sigma0 (x : Word) : Word := rotr x 7 ^^^ rotr x 18 ^^^ (x >>> 3)

/-- sigma1 (R143). -/
def sigma1 (x : Word) : Word := rotr x 17 ^^^ rotr x 19 ^^^ (x >>> 10)

/-- Ch (R162). -/
def ch (x y z : Word) : Word := (x &&& y) ^^^ (~~~x &&& z)

/-- Maj (R163). -/
def maj (x y z : Word) : Word := (x &&& y) ^^^ (x &&& z) ^^^ (y &&& z)

/-- Sigma0, the source's Σ0 (R164). -/
def bigSigma0 (x : Word) : Word := rotr x 2 ^^^ rotr x 13 ^^^ rotr x 22

/-- Sigma1, the source's Σ1 (R165). -/
def bigSigma1 (x : Word) : Word := rotr x 6 ^^^ rotr x 11 ^^^ rotr x 25

/-- Lane `j` of a word, lane 0 in bits [31:24] and lane 3 in bits [7:0]: v[31 - 8j : 24 - 8j]
(20_memory.md R63, 30_encoding.md R97). -/
def lane (v : Word) (j : Nat) : Byte := v.extractLsb' (24 - 8 * j) 8

/-- The word whose lanes 0 to 3 are the four bytes: {b0, b1, b2, b3} (R63, R66). -/
def ofLanes (b0 b1 b2 b3 : Byte) : Word := (b0 ++ b1 ++ b2 ++ b3 : BitVec 32)

end Sys2Proof.Machine
end

