-- ==== Sys2Proof/Machine/Ops.lean ====
section
/-! DEFINITION. The named operations on memory and registers, recording an error (60_exceptions.md R283, the block's
trap entry; there is no return from one, R285), and the reset event (70_reset_and_hazards.md R310). -/

namespace Sys2Proof.Machine

/-! ## The message buffer -/

/-- The byte written at address `a`, none when it has not been written since reset (20_memory.md R63, R319). -/
def Memory.get? : Memory → Nat → Option Byte
  | [], _ => none
  | (x, v) :: r, a => if x = a then some v else Memory.get? r a

/-- Set the byte at `a`, keeping the addresses strictly rising. -/
def Memory.set : Memory → Nat → Byte → Memory
  | [], a, b => [(a, b)]
  | (x, v) :: r, a, b =>
    if a < x then (a, b) :: (x, v) :: r
    else if a = x then (a, b) :: r
    else (x, v) :: Memory.set r a b

/-- The canonical form: addresses strictly rising. (No listed byte can equal what an unlisted one reads as: that is
no value.) -/
abbrev Memory.wf (m : Memory) : Prop := m.Pairwise fun x y => x.1 < y.1

/-- Byte `a` has been written since reset (70_reset_and_hazards.md R319). -/
def Memory.written (m : Memory) (a : Nat) : Bool := (m.get? a).isSome

/-- Set the four bytes of word `v` at `a`, lane 0 lowest (20_memory.md R63, R65). -/
def Memory.setWord (m : Memory) (a : Nat) (v : Word) : Memory :=
  (((m.set a (lane v 0)).set (a + 1) (lane v 1)).set (a + 2) (lane v 2)).set (a + 3) (lane v 3)

/-- MSG_BYTE(i) (20_memory.md R63): the byte written, and for a byte not written since reset a free value (93 U1,
log 6). The engine reads it only where it has been written (R319, `execEngSchedLoad`). -/
def State.msgByte (s : State) (i : Nat) : Byte := (s.mem.get? i).getD (Config.powerUpByte s.resets i)

/-- MSGW[m], the word with lanes MSG_BYTE(4m) .. MSG_BYTE(4m+3) (20_memory.md R63). -/
def State.msgWord (s : State) (m : Nat) : Word :=
  ofLanes (s.msgByte (4 * m)) (s.msgByte (4 * m + 1)) (s.msgByte (4 * m + 2)) (s.msgByte (4 * m + 3))

/-- MemWrite(addr, 4, v) (20_memory.md R65): stores while BUSY = 0, no effect while BUSY = 1. -/
def State.memWrite (s : State) (addr : Nat) (v : Word) : State :=
  if s.status.busy then s else { s with mem := s.mem.setWord addr v }

/-! ## Registers -/

/-- Answer a read: rdata <- w (30_encoding.md R90). Nothing else changes (20_memory.md R72). -/
def State.reply (s : State) (w : Word) : State := { s with rdata := w }

/-- LEN_LO <- w. -/
def State.setLenLo (s : State) (w : Word) : State := { s with lenLo := w }

/-- LEN_HI <- w. -/
def State.setLenHi (s : State) (w : Word) : State := { s with lenHi := w }

/-- Write the STATUS fields. -/
def State.setStatus (s : State) (f : Status) : State := { s with status := f }

/-- Write the hash state H[0..7]. -/
def State.setH (s : State) (h : Vector Word 8) : State := { s with H := h }

/-- Write the message schedule W[0..63]. -/
def State.setW (s : State) (w : Vector Word 64) : State := { s with W := w }

/-- Write a..h, all at once (00_scope.md R12: a simultaneous assignment). -/
def State.setWork (s : State) (v : Work) : State := { s with work := v }

/-- pc <- (phase, blk, t) (00_scope.md R12). -/
def State.setPc (s : State) (phase : BitVec 3) (blk : Nat) (t : Fin 64) : State := { s with pc := ⟨phase, blk, t⟩ }

/-- Lq <- l; NB <- n (46_host_interface.md R233). -/
def State.latch (s : State) (l : BitVec 64) (n : Nat) : State := { s with Lq := l, NB := n }

/-! ## Errors and reset -/

/-- raise E (60_exceptions.md R283): ERR <- 1, ERRCODE <- code(E), and nothing else: BUSY, pc, H, Lq, NB, LEN and the
buffer keep their values, no state is saved and control goes nowhere. -/
def State.raise (s : State) (e : ErrorCause) : State := s.setStatus (s.status.failed e)

/-- The reset event (70_reset_and_hazards.md R310, R312): every element takes its reset value, so a computation in
progress is over and every message word is unwritten. MSG_CAP is a parameter and stays; the host's side (`rdata`,
the events still to come) is not the block's and stays (logs 5, 8); the reset is counted (log 6). -/
def State.applyReset (s : State) : State :=
  { State.resetWith s.params with rdata := s.rdata, events := s.events, resets := s.resets + 1 }

end Sys2Proof.Machine
end

