-- ==== Sys2Proof/Machine/Operands.lean ====
section
/-! DEFINITION. The operands of the operations (30_encoding.md R101, R102): the length, the capacity, the padded bytes
of 41_padder.md, the schedule words of 42_scheduler.md, and the two views of H of 44_serializer.md. -/

namespace Sys2Proof.Machine

/-! ## Lengths -/

/-- L = {LEN_HI, LEN_LO} (30_encoding.md R101, 46_host_interface.md R233). -/
def State.length (s : State) : BitVec 64 := s.lenHi ++ s.lenLo

/-- CAPACITY reads MSG_CAP (10_state.md R41). -/
def State.capacity (s : State) : Word := BitVec.ofNat 32 s.params.msgCap

/-- NB = (L + 8) div 64 + 1, on unbounded naturals (41_padder.md R120, 00_scope.md R8). -/
def blocksOf (len : Nat) : Nat := (len + 8) / 64 + 1

/-- PADLEN: N = ((L + 8) div 64 + 1) * 64 (41_padder.md R120). -/
def padLen (len : Nat) : Nat := blocksOf len * 64

/-- BITLEN: BL = L * 8, an unsigned 64-bit value (41_padder.md R122). -/
def bitLen (len : Nat) : BitVec 64 := BitVec.ofNat 64 (len * 8)

/-! ## The padder -/

/-- PADBYTE(i) (41_padder.md R123): message byte, marker, zero fill or length byte. N is computed from Lq (R120;
log 13). For i >= N no rule gives a value: a free value (log 12). -/
def State.padByte (s : State) (i : Nat) : Byte :=
  let len := s.Lq.toNat
  let N := padLen len
  if i < len then s.msgByte i
  else if i = len then 0x80#8
  else if i < N - 8 then 0x00#8
  else if i < N then (bitLen len).extractLsb' (8 * (N - 1 - i)) 8
  else Config.paddingPastEnd i

/-- PADWORD(b, t): the big-endian word of padded bytes 64b + 4t .. 64b + 4t + 3 (42_scheduler.md R144). -/
def State.padWord (s : State) (b t : Nat) : Word :=
  ofLanes (s.padByte (64 * b + 4 * t)) (s.padByte (64 * b + 4 * t + 1)) (s.padByte (64 * b + 4 * t + 2))
    (s.padByte (64 * b + 4 * t + 3))

/-- The first message word, if any, of which block `b` has a byte i < Lq that has not been written since reset
(70_reset_and_hazards.md R319). Bytes at or beyond Lq are not read (20_memory.md R64). -/
def State.firstUnwritten (s : State) (b : Nat) : Option Nat :=
  (((List.range 64).map (64 * b + ·)).find? fun i => decide (i < s.Lq.toNat) && !s.mem.written i).map (· / 4)

/-! ## The schedule -/

/-- W[t - d] (42_scheduler.md R146). For t < d there is no such element: a free value (log 12). -/
def State.scheduleBack (s : State) (d : Nat) : Word :=
  if d ≤ s.pc.t.val then s.W[s.pc.t.val - d]'(by have := s.pc.t.isLt; omega)
  else Config.scheduleBelowZero s.pc.t.val d

/-! ## The output serializer -/

/-- ENCODE(H): digest byte D[i] = lane i mod 4 of H[i div 4] (44_serializer.md R190). -/
def digestByte (H : Vector Word 8) (i : Fin 32) : Byte := lane (H[i.val / 4]'(by have := i.isLt; omega)) (i.val % 4)

/-- HEXCHAR(v): the code of the lowercase hexadecimal digit v (44_serializer.md R192; log 15). -/
def hexChar (v : BitVec 4) : Byte :=
  if v.toNat < 10 then 0x30#8 + v.setWidth 8 else 0x61#8 + (v.setWidth 8 - 10#8)

/-- HEXSTR: character C[c], the high nibble of D[c div 2] when c is even and the low one when it is odd
(44_serializer.md R193). -/
def hexStrChar (H : Vector Word 8) (c : Fin 64) : Byte :=
  let d := digestByte H ⟨c.val / 2, by have := c.isLt; omega⟩
  if c.val % 2 = 0 then hexChar (d.extractLsb' 4 4) else hexChar (d.extractLsb' 0 4)

/-- DIGEST_k: H[k] when DONE = 1, else 0 (44_serializer.md R191, R195). -/
def State.digestView (s : State) (k : Fin 8) : Word := if s.status.done then s.H[k.val] else 0x00000000#32

/-- HEX_j: {C[4j], C[4j+1], C[4j+2], C[4j+3]} when DONE = 1, else 0 (44_serializer.md R194, R195). -/
def State.hexView (s : State) (j : Fin 16) : Word :=
  if s.status.done then
    ofLanes (hexStrChar s.H ⟨4 * j.val, by omega⟩) (hexStrChar s.H ⟨4 * j.val + 1, by omega⟩)
      (hexStrChar s.H ⟨4 * j.val + 2, by omega⟩) (hexStrChar s.H ⟨4 * j.val + 3, by omega⟩)
  else 0x00000000#32

end Sys2Proof.Machine
end

