-- ==== Sys2Proof/Machine/Buffer.lean ====
section
/-! DEFINITION. The message window and the reserved offsets (46_host_interface.md sections 4 and 5). -/

namespace Sys2Proof.Machine

/-- RD_MSG: rdata <- MSGW[m], in every state (R248). A byte not written since reset reads as a free value (93 U1,
log 6). -/
def execRdMsg (m : BitVec 29) (s : State) : Result := .next (s.reply (s.msgWord m.toNat))

/-- WR_MSG: if BUSY == 0 then MemWrite(4m, 4, wdata) else skip (R247). -/
def execWrMsg (m : BitVec 29) (wdata : Word) (s : State) : Result := .next (s.memWrite (4 * m.toNat) wdata)

/-- RD_RSVD: rdata <- 0 (R249; log 9). -/
def execRdRsvd (_word : BitVec 30) (s : State) : Result := .next (s.reply 0x00000000#32)

/-- WR_RSVD: skip (R250; log 9). -/
def execWrRsvd (_word : BitVec 30) (_wdata : Word) (s : State) : Result := .next s

end Sys2Proof.Machine
end

