-- ==== Sys2Proof/Machine/Commands.lean ====
section
/-! DEFINITION. The commands written to CTRL (46_host_interface.md section 1). -/

namespace Sys2Proof.Machine

/-- CTRL_NOP: skip, in every state (R231). -/
def execCtrlNop (_ignored : BitVec 28) (s : State) : Result := .next s

/-- CTRL_RSVD: the hardware treats a reserved command as a NOP (R232; log 9). -/
def execCtrlRsvd (_cmd : BitVec 4) (_ignored : BitVec 28) (s : State) : Result := .next s

/-- An accepted START (R233): Lq, NB, H and pc are initialised and BUSY <- 1. -/
def State.start (s : State) : State :=
  (((s.latch s.length (blocksOf s.length.toNat)).setH IV).setPc 1#3 0 0).setStatus s.status.begun

/-- CTRL_START (R233): ignored while BUSY = 1; else DONE, ERR and ERRCODE are cleared, and then the length is checked,
overflow first (R284): L >= 2^61 raises LengthOverflow (R281), L > MSG_CAP raises LengthCapacity (R282), any other
length is accepted. -/
def execCtrlStart (_ignored : BitVec 28) (s : State) : Result :=
  if s.status.busy then .next s
  else
    let c := s.setStatus s.status.cleared
    if 2 ^ 61 ≤ s.length.toNat then .next (c.raise .lengthOverflow)
    else if s.params.msgCap < s.length.toNat then .next (c.raise .lengthCapacity)
    else .next c.start

end Sys2Proof.Machine
end

