-- ==== Sys2Proof/Machine/Compressor.lean ====
section
/-! DEFINITION. The compressor's three engine operations (43_compressor.md section 3). Every sum is mod 2^32 and no
flag records a carry (R173). -/

namespace Sys2Proof.Machine

/-- (a, ..., h) <- (H[0], ..., H[7]) (R166). -/
def workOf (H : Vector Word 8) : Work := ⟨H[0], H[1], H[2], H[3], H[4], H[5], H[6], H[7]⟩

/-- ROUND_INIT (R166): a..h <- H; pc <- (ROUND, blk, 0). -/
def execEngRoundInit (s : State) : Result := .next ((s.setWork (workOf s.H)).setPc 4#3 s.pc.blk 0)

/-- T1 = h + Sigma1(e) + Ch(e, f, g) + K[t] + W[t] (R167). -/
def Work.t1 (v : Work) (k w : Word) : Word := v.h + bigSigma1 v.e + ch v.e v.f v.g + k + w

/-- T2 = Sigma0(a) + Maj(a, b, c) (R167). -/
def Work.t2 (v : Work) : Word := bigSigma0 v.a + maj v.a v.b v.c

/-- One round (R167): (h, g, f, e, d, c, b, a) <- (g, f, e, d + T1, c, b, a, T1 + T2), every right side taken before
the round. -/
def Work.round (v : Work) (k w : Word) : Work where
  a := v.t1 k w + v.t2
  b := v.a
  c := v.b
  d := v.c
  e := v.d + v.t1 k w
  f := v.e
  g := v.f
  h := v.g

/-- ROUND (R167): one round with K[t] and W[t]; t + 1 while t < 63, then FOLD. -/
def execEngRound (s : State) : Result :=
  let s' := s.setWork (s.work.round (K s.pc.t) s.W[s.pc.t.val])
  if h : s.pc.t.val < 63 then .next (s'.setPc 4#3 s.pc.blk ⟨s.pc.t.val + 1, by omega⟩)
  else .next (s'.setPc 5#3 s.pc.blk 0)

/-- (H[0] + a, ..., H[7] + h), each sum mod 2^32 on its own (R168). -/
def folded (H : Vector Word 8) (v : Work) : Vector Word 8 :=
  #v[H[0] + v.a, H[1] + v.b, H[2] + v.c, H[3] + v.d, H[4] + v.e, H[5] + v.f, H[6] + v.g, H[7] + v.h]

/-- FOLD (R168): H <- H + (a..h); then the next block, or after the last one BUSY <- 0, DONE <- 1 and
pc <- (IDLE, blk, t) (log 11). -/
def execEngFold (s : State) : Result :=
  let s' := s.setH (folded s.H s.work)
  if s.pc.blk + 1 < s.NB then .next (s'.setPc 1#3 (s.pc.blk + 1) 0)
  else .next ((s'.setStatus s.status.finished).setPc 0#3 s.pc.blk s.pc.t)

end Sys2Proof.Machine
end

