-- ==== Sys2Proof/Machine/Registers.lean ====
section
/-! DEFINITION. Reads and writes of CTRL, STATUS, LEN_LO, LEN_HI and CAPACITY (46_host_interface.md section 2). -/

namespace Sys2Proof.Machine

/-- RD_CTRL: rdata <- 0; CTRL has no storage (R234). -/
def execRdCtrl (s : State) : Result := .next (s.reply 0x00000000#32)

/-- RD_STATUS: rdata <- the STATUS word; the read clears nothing (R235). -/
def execRdStatus (s : State) : Result := .next (s.reply s.status.word)

/-- WR_STATUS: skip (R236). -/
def execWrStatus (_wdata : Word) (s : State) : Result := .next s

/-- RD_LEN_LO: rdata <- LEN_LO (R238). -/
def execRdLenLo (s : State) : Result := .next (s.reply s.lenLo)

/-- WR_LEN_LO: if BUSY == 0 then LEN_LO <- wdata else skip (R237). -/
def execWrLenLo (wdata : Word) (s : State) : Result := if s.status.busy then .next s else .next (s.setLenLo wdata)

/-- RD_LEN_HI: rdata <- LEN_HI (R240). -/
def execRdLenHi (s : State) : Result := .next (s.reply s.lenHi)

/-- WR_LEN_HI: if BUSY == 0 then LEN_HI <- wdata else skip (R239). -/
def execWrLenHi (wdata : Word) (s : State) : Result := if s.status.busy then .next s else .next (s.setLenHi wdata)

/-- RD_CAPACITY: rdata <- MSG_CAP (R241). -/
def execRdCapacity (s : State) : Result := .next (s.reply s.capacity)

/-- WR_CAPACITY: skip (R242). -/
def execWrCapacity (_wdata : Word) (s : State) : Result := .next s

end Sys2Proof.Machine
end

