-- ==== Sys2Proof/Machine/Results.lean ====
section
/-! DEFINITION. Reads and writes of the two result windows (46_host_interface.md section 3). -/

namespace Sys2Proof.Machine

/-- RD_DIGEST: rdata <- (if DONE == 1 then H[k] else 0) (R243). -/
def execRdDigest (k : Fin 8) (s : State) : Result := .next (s.reply (s.digestView k))

/-- WR_DIGEST: skip; the host cannot write the hash state (R244). -/
def execWrDigest (_k : Fin 8) (_wdata : Word) (s : State) : Result := .next s

/-- RD_HEX: rdata <- (if DONE == 1 then HEX_j else 0) (R245). -/
def execRdHex (j : Fin 16) (s : State) : Result := .next (s.reply (s.hexView j))

/-- WR_HEX: skip (R246). -/
def execWrHex (_j : Fin 16) (_wdata : Word) (s : State) : Result := .next s

end Sys2Proof.Machine
end

