-- ==== Sys2Proof/Machine/Scheduler.lean ====
section
/-! DEFINITION. The message scheduler's two engine operations (42_scheduler.md section 2). They write only W and pc
(R147). -/

namespace Sys2Proof.Machine

/-- W with W[0..15] <- PADWORD(blk, 0..15) (R145). -/
def State.loadedSchedule (s : State) : Vector Word 64 :=
  Vector.ofFn fun i => if i.val < 16 then s.padWord s.pc.blk i.val else s.W[i.val]

/-- SCHED_LOAD (R145): W[0..15] <- the block's words; pc <- (SCHED_EXPAND, blk, 16). A byte below Lq of a message word
not written since reset is the model fault of 70_reset_and_hazards.md R319. -/
def execEngSchedLoad (s : State) : Result :=
  match s.firstUnwritten s.pc.blk with
  | some m => .fault (.unwrittenMessageWord m)
  | none => .next ((s.setW s.loadedSchedule).setPc 2#3 s.pc.blk 16)

/-- sigma1(W[t-2]) + W[t-7] + sigma0(W[t-15]) + W[t-16], mod 2^32 (R146). -/
def State.expandedWord (s : State) : Word :=
  sigma1 (s.scheduleBack 2) + s.scheduleBack 7 + sigma0 (s.scheduleBack 15) + s.scheduleBack 16

/-- SCHED_EXPAND (R146): W[t] <- the expanded word; t + 1 while t < 63, then ROUND_INIT. -/
def execEngSchedExpand (s : State) : Result :=
  let s' := s.setW (s.W.set s.pc.t.val s.expandedWord)
  if h : s.pc.t.val < 63 then .next (s'.setPc 2#3 s.pc.blk ⟨s.pc.t.val + 1, by omega⟩)
  else .next (s'.setPc 3#3 s.pc.blk 0)

end Sys2Proof.Machine
end

