-- ==== Sys2Proof/Machine/Sequencer.lean ====
section
/-! DEFINITION. The sequencer's idle and reserved phases (45_sequencer.md R210, 30_encoding.md R103), and the choice of
what happens next: the first pending event, else the engine (log 3). There is no instruction fetch (20_memory.md
R68); this choice stands in its place. -/

namespace Sys2Proof.Machine

/-- ENG_IDLE: the engine has no step, so nothing changes (R210, R216; log 10). -/
def execEngIdle (s : State) : Result := .next s

/-- ENG_RSVD: a phase register holding 6 or 7 makes the engine take no step, and BUSY stays as it is (R103). The
engine is stuck; host transactions and reset still act (log 10). -/
def execEngRsvd (_low : BitVec 1) (s : State) : Result := .next s

/-- The engine's operation: the one `phase` selects while BUSY = 1, none (IDLE) while BUSY = 0 (R210; log 16). -/
def State.engineCode (s : State) : Code := .enginePhase (if s.status.busy then s.pc.phase else 0#3)

/-- The next event is a reset. -/
def State.resetIsNext (s : State) : Bool :=
  match s.events with
  | .reset :: _ => true
  | .host _ :: _ | .engine :: _ | [] => false

/-- The operation of the next event: a pending host transaction, or the engine's turn; with no event pending it is
the engine's turn (45_sequencer.md R214). -/
def State.nextCode (s : State) : Code :=
  match s.events with
  | .host t :: _ => .transaction t
  | .engine :: _ | .reset :: _ | [] => s.engineCode

/-- The first event is taken off the list. -/
def State.popEvent (s : State) : State := { s with events := s.events.tail }

/-- The state in which the next step runs the operation `c`: a transaction is put first among the events; an engine
operation is put in the phase register with BUSY = 1 (IDLE leaves BUSY), with a turn of the engine first (log 23). -/
def State.placeCode (s : State) : Code → State
  | .transaction t => { s with events := .host t :: s.events }
  | .enginePhase ph =>
    { s with
      events := .engine :: s.events
      pc := { s.pc with phase := ph }
      status := { s.status with busy := s.status.busy || decide (ph ≠ 0#3) } }

end Sys2Proof.Machine
end

