-- ==== Sys2Proof/Machine/Dispatch.lean ====
section
/-! DEFINITION. One arm per constructor of Instr: the meaning of each row of spec/opcode_table.json. -/

namespace Sys2Proof.Machine

def exec (i : Instr) (s : State) : Host.Outcome State Fault Refusal :=
  match i with
  | .ctrlNop hi => Sys2Proof.Machine.execCtrlNop hi s
  | .ctrlStart hi => Sys2Proof.Machine.execCtrlStart hi s
  | .ctrlRsvd cmd hi => Sys2Proof.Machine.execCtrlRsvd cmd hi s
  | .rdCtrl => Sys2Proof.Machine.execRdCtrl s
  | .rdStatus => Sys2Proof.Machine.execRdStatus s
  | .wrStatus w => Sys2Proof.Machine.execWrStatus w s
  | .rdLenLo => Sys2Proof.Machine.execRdLenLo s
  | .wrLenLo w => Sys2Proof.Machine.execWrLenLo w s
  | .rdLenHi => Sys2Proof.Machine.execRdLenHi s
  | .wrLenHi w => Sys2Proof.Machine.execWrLenHi w s
  | .rdCapacity => Sys2Proof.Machine.execRdCapacity s
  | .wrCapacity w => Sys2Proof.Machine.execWrCapacity w s
  | .rdDigest k => Sys2Proof.Machine.execRdDigest k s
  | .wrDigest k w => Sys2Proof.Machine.execWrDigest k w s
  | .rdHex j => Sys2Proof.Machine.execRdHex j s
  | .wrHex j w => Sys2Proof.Machine.execWrHex j w s
  | .rdMsg m => Sys2Proof.Machine.execRdMsg m s
  | .wrMsg m w => Sys2Proof.Machine.execWrMsg m w s
  | .rdRsvd word => Sys2Proof.Machine.execRdRsvd word s
  | .wrRsvd word w => Sys2Proof.Machine.execWrRsvd word w s
  | .engIdle => Sys2Proof.Machine.execEngIdle s
  | .engSchedLoad => Sys2Proof.Machine.execEngSchedLoad s
  | .engSchedExpand => Sys2Proof.Machine.execEngSchedExpand s
  | .engRoundInit => Sys2Proof.Machine.execEngRoundInit s
  | .engRound => Sys2Proof.Machine.execEngRound s
  | .engFold => Sys2Proof.Machine.execEngFold s
  | .engRsvd low => Sys2Proof.Machine.execEngRsvd low s

end Sys2Proof.Machine
end

