-- ==== Sys2Proof/Machine/Step.lean ====
section
/-! DEFINITION. One step: the next event happens (00_scope.md R14). -/

namespace Sys2Proof.Machine

/-- A reset, or the operation of the next event in the state with that event taken off. -/
def step (s : State) : Host.Outcome State Fault Refusal :=
  if s.resetIsNext then .next s.popEvent.applyReset
  else exec (decode s.params s.nextCode) s.popEvent

/-- `s` with the operation of bits `w` (log 2) placed so that the very next step runs it (log 23); unchanged when `w`
is no operation's bits. -/
def State.withFetchWord (s : State) (nbits w : Nat) : State :=
  match codeOfBits nbits w with
  | .ok c => s.placeCode c
  | .error _ => s

end Sys2Proof.Machine
end

