-- ==== Sys2Proof/Machine/Reference.lean ====
section
/-! DEFINITION. SHA-256 as the pure function of a byte sequence that the source specifies (00_scope.md R1, R15): pad,
schedule, compress, serialize. It has no state, no steps and no buffer. Claims compare the block's runs with it; no
meaning uses it. It shares with the machine the constants and the word functions, and nothing else of the engine. -/

namespace Sys2Proof.Machine.Reference

/-- The number of zero bytes, the least k >= 0 that makes len + 1 + k + 8 a multiple of 64 (41_padder.md R125). -/
def zeroFill (len : Nat) : Nat := (64 - (len + 9) % 64) % 64

/-- The last 8 bytes: the bit length, big-endian (41_padder.md R126). -/
def lengthField (len : Nat) : List Byte :=
  (List.range 8).map fun k => BitVec.ofNat 8 (8 * len / 256 ^ (7 - k))

/-- Message + one 0x80 byte + k zero bytes + the length field (00_scope.md section 6, 41_padder.md R123). -/
def pad (msg : List Byte) : List Byte :=
  msg ++ [0x80#8] ++ List.replicate (zeroFill msg.length) 0x00#8 ++ lengthField msg.length

/-- Big-endian words of successive 4-byte groups (42_scheduler.md R144). -/
def toWords : List Byte → List Word
  | b0 :: b1 :: b2 :: b3 :: r => ofLanes b0 b1 b2 b3 :: toWords r
  | _ => []

/-- Append the schedule's next word: W[t] = sigma1(W[t-2]) + W[t-7] + sigma0(W[t-15]) + W[t-16], for t the length so
far (42_scheduler.md R146). -/
def extend (w : List Word) : List Word :=
  w ++ [sigma1 (w.getD (w.length - 2) 0#32) + w.getD (w.length - 7) 0#32 + sigma0 (w.getD (w.length - 15) 0#32)
    + w.getD (w.length - 16) 0#32]

/-- `n` words more. -/
def extendN : Nat → List Word → List Word
  | 0, w => w
  | n + 1, w => extendN n (extend w)

/-- The 64 schedule words of a block of 16 words (R145, R146). -/
def schedule (block : List Word) : List Word := extendN 48 block

/-- One round on (a, ..., h) (43_compressor.md R167). -/
def round (v : Work) (k w : Word) : Work :=
  let t1 := v.h + bigSigma1 v.e + ch v.e v.f v.g + k + w
  let t2 := bigSigma0 v.a + maj v.a v.b v.c
  ⟨t1 + t2, v.a, v.b, v.c, v.d + t1, v.e, v.f, v.g⟩

/-- The 64 rounds, t = 0, 1, ..., 63 in order (43_compressor.md R166, R167). -/
def rounds (v : Work) (w : List Word) : Work :=
  (List.range 64).foldl (fun v t => round v (roundConstants.getD t 0#32) (w.getD t 0#32)) v

/-- The compression of one block (43_compressor.md R166 to R168). -/
def compress (H : List Word) (block : List Word) : List Word :=
  let v := rounds ⟨H.getD 0 0, H.getD 1 0, H.getD 2 0, H.getD 3 0, H.getD 4 0, H.getD 5 0, H.getD 6 0, H.getD 7 0⟩
    (schedule block)
  List.zipWith (· + ·) H [v.a, v.b, v.c, v.d, v.e, v.f, v.g, v.h]

/-- The blocks, each 16 words, in ascending order (41_padder.md R129, 45_sequencer.md R212). -/
def blocks (msg : List Byte) : List (List Word) :=
  (List.range (blocksOf msg.length)).map fun b => toWords (((pad msg).drop (64 * b)).take 64)

/-- The hash state after the last block, H[0..7] (R169). -/
def hashWords (msg : List Byte) : List Word := (blocks msg).foldl compress IV.toList

/-- The 32 digest bytes (44_serializer.md R190). -/
def digest (msg : List Byte) : List Byte := (hashWords msg).flatMap fun w => [lane w 0, lane w 1, lane w 2, lane w 3]

/-- The digest as 64 lowercase hexadecimal characters (44_serializer.md R193). -/
def digestHex (msg : List Byte) : List Byte :=
  (digest msg).flatMap fun d => [hexChar (d.extractLsb' 4 4), hexChar (d.extractLsb' 0 4)]

end Sys2Proof.Machine.Reference
end

