-- ==== Sys2Proof/Machine/Script.lean ====
section
/-! DEFINITION. Host programs: transaction scripts and pseudo-instructions (30_encoding.md R105, R106), and the host's
own control flow over them (labels, BNZ, asserting reads), which R105 says is no transaction of the block (log 18). -/

namespace Sys2Proof.Machine

/-- One line of a script (R105). Labels are numbers (DESIGN CHOICE, log 18). -/
inductive ScriptLine where
  | wr (off : BitVec 32) (wdata : Word)
  | rd (off : BitVec 32)
  | rdExpect (off : BitVec 32) (value : Word)
  | label (name : Nat)
  | bnz (off : BitVec 32) (mask : Word) (target : Nat)
  deriving DecidableEq, Repr

/-- The transaction a line performs; a label performs none (R105). -/
def ScriptLine.transaction? : ScriptLine → Option Transaction
  | .wr off w => some ⟨.wr, off, w⟩
  | .rd off => some ⟨.rd, off, 0#32⟩
  | .rdExpect off _ => some ⟨.rd, off, 0#32⟩
  | .label _ => none
  | .bnz off _ _ => some ⟨.rd, off, 0#32⟩

/-- The encoding of a script: its transactions in order (R105). -/
def scriptTransactions (l : List ScriptLine) : List Transaction := l.filterMap ScriptLine.transaction?

/-! ## Pseudo-instructions (R106) -/

/-- NOP: WR 0x000, 0x00000000. -/
def scriptNop : List ScriptLine := [.wr 0x000#32 0x00000000#32]

/-- START: WR 0x000, 0x00000001. -/
def scriptStart : List ScriptLine := [.wr 0x000#32 0x00000001#32]

/-- SETLEN L: WR 0x008, L[31:0] then WR 0x00C, L[63:32]. -/
def scriptSetLen (len : BitVec 64) : List ScriptLine :=
  [.wr 0x008#32 (len.extractLsb' 0 32), .wr 0x00C#32 (len.extractLsb' 32 32)]

/-- Word m of a message, bytes past its end read as 0x00. -/
def messageWord (msg : List Byte) (m : Nat) : Word :=
  ofLanes (msg.getD (4 * m) 0#8) (msg.getD (4 * m + 1) 0#8) (msg.getD (4 * m + 2) 0#8) (msg.getD (4 * m + 3) 0#8)

/-- LOADMSG B: for m in [0, ceil(n/4)): WR 0x80000000 + 4m, word m. (An offset past 32 bits, for n > 2^31, wraps:
DESIGN CHOICE, log 18.) -/
def scriptLoadMsg (msg : List Byte) : List ScriptLine :=
  (List.range ((msg.length + 3) / 4)).map fun m => .wr (BitVec.ofNat 32 (0x80000000 + 4 * m)) (messageWord msg m)

/-- POLL: p: BNZ 0x004, 0x00000001, p. -/
def scriptPoll (p : Nat) : List ScriptLine := [.label p, .bnz 0x004#32 0x00000001#32 p]

/-- READDIGEST: RD 0x040 ... RD 0x05C. -/
def scriptReadDigest : List ScriptLine := (List.range 8).map fun k => .rd (BitVec.ofNat 32 (0x040 + 4 * k))

/-- READHEX: RD 0x080 ... RD 0x0BC. -/
def scriptReadHex : List ScriptLine := (List.range 16).map fun j => .rd (BitVec.ofNat 32 (0x080 + 4 * j))

/-- HASH B up to its POLL: LOADMSG B; SETLEN n; START. (An n past 64 bits wraps: DESIGN CHOICE, log 18.) -/
def scriptBeginHash (msg : List Byte) : List ScriptLine :=
  scriptLoadMsg msg ++ scriptSetLen (BitVec.ofNat 64 msg.length) ++ scriptStart

/-- HASH B: LOADMSG B; SETLEN n; START; POLL. -/
def scriptHash (msg : List Byte) (p : Nat) : List ScriptLine := scriptBeginHash msg ++ scriptPoll p

/-- The transactions of a script as pending events. -/
def scriptEvents (l : List ScriptLine) : List Event := (scriptTransactions l).map .host

/-! ## The host's control flow (R105) -/

/-- The host while it runs a script: the lines, the next line, and whether every asserting read so far held. (R105 does
not say what follows an assertion that fails; the host records it and goes on. DESIGN CHOICE, log 18.) -/
structure HostProgram where
  lines : List ScriptLine
  line   : Nat
  held  : Bool
  deriving DecidableEq, Repr

/-- The line of the label `target`. DESIGN CHOICE, log 18: R105 says nothing of a script that defines a label twice or
not at all; BNZ then goes to the first such label, or past the end of the script. -/
def HostProgram.lineOf (h : HostProgram) (target : Nat) : Nat :=
  match h.lines.findIdx? (· = .label target) with
  | some i => i
  | none => h.lines.length

/-- The transaction of the host's next line, if it performs one. -/
def HostProgram.request? (h : HostProgram) : Option Transaction := (h.lines[h.line]?).bind ScriptLine.transaction?

/-- The host after its next line, given the word that its read returned: the next line; for BNZ the label's line while
(rdata AND mask) != 0. -/
def HostProgram.advance (h : HostProgram) (rdata : Word) : HostProgram :=
  match h.lines[h.line]? with
  | none => h
  | some (.bnz _ mask target) =>
    if rdata &&& mask = 0#32 then { h with line := h.line + 1 } else { h with line := h.lineOf target }
  | some (.rdExpect _ value) => { h with line := h.line + 1, held := h.held && decide (rdata = value) }
  | some (.wr _ _) | some (.rd _) | some (.label _) => { h with line := h.line + 1 }

/-- One move of the host: its next line's transaction, if it has one, is the block's next event. -/
def hostMove (h : HostProgram) (s : State) : Host.Outcome (HostProgram × State) Fault Refusal :=
  match h.request? with
  | none => .next (h.advance s.rdata, s)
  | some t =>
    match step (s.placeCode (.transaction t)) with
    | .next s' => .next (h.advance s'.rdata, s')
    | .fault r => .fault r
    | .refused r => .refused r

end Sys2Proof.Machine
end

