-- ==== Sys2Proof/Safety.lean ====
section
/-! DEFINITION. The terms the claims use: the invariant of the block, the host's duty on the message buffer, and what
the host can see. -/

namespace Sys2Proof.Machine

/-- The first 64 primes, 2 to 311 (43_compressor.md R160, R161). -/
def firstPrimes : List Nat :=
  [2, 3, 5, 7, 11, 13, 17, 19, 23, 29, 31, 37, 41, 43, 47, 53] ++
  [59, 61, 67, 71, 73, 79, 83, 89, 97, 101, 103, 107, 109, 113, 127, 131] ++
  [137, 139, 149, 151, 157, 163, 167, 173, 179, 181, 191, 193, 197, 199, 211, 223] ++
  [227, 229, 233, 239, 241, 251, 257, 263, 269, 271, 277, 281, 283, 293, 307, 311]

/-- Every listed byte lies in the buffer (20_memory.md R62). -/
abbrev Memory.inBuffer (p : Params) (m : Memory) : Prop := ∀ c ∈ m, c.1 < p.msgCap

/-- The bytes of a word have been written together: one written bit for each word (70_reset_and_hazards.md R319). -/
def Memory.wholeWords (m : Memory) : Prop := ∀ a b, a / 4 = b / 4 → m.written a = m.written b

/-- What the spec says holds in every reachable state. -/
structure State.Inv (s : State) : Prop where
  /-- R38: BUSY = 1 implies DONE = 0 and ERR = 0. -/
  busy_clear : s.status.busy = true → s.status.done = false ∧ s.status.err = false
  /-- R38: DONE = 1 implies ERR = 0. -/
  done_clear : s.status.done = true → s.status.err = false
  /-- R38: ERR = 0 exactly when ERRCODE = 0. -/
  err_code : s.status.err = false ↔ s.status.errcode = 0#4
  /-- R36: ERRCODE 3 to 15 are never produced. -/
  code_legal : s.status.errcode.toNat ≤ 2
  /-- R210: BUSY = 1 exactly when phase is not IDLE. -/
  busy_phase : s.status.busy = true ↔ s.pc.phase ≠ 0#3
  /-- R103: phases 6 and 7 are unreachable. -/
  phase_legal : s.pc.phase.toNat ≤ 5
  /-- R27, R29, R31: during a computation Lq <= MSG_CAP, NB is the block count of Lq, and blk < NB. -/
  latched : s.status.busy = true →
    s.Lq.toNat ≤ s.params.msgCap ∧ s.NB = blocksOf s.Lq.toNat ∧ s.pc.blk < s.NB
  /-- R216: t in SCHED_LOAD, ROUND_INIT and FOLD is 0. -/
  t_zero : s.pc.phase = 1#3 ∨ s.pc.phase = 3#3 ∨ s.pc.phase = 5#3 → s.pc.t.val = 0
  /-- R146: t in SCHED_EXPAND is in [16, 64). -/
  t_expand : s.pc.phase = 2#3 → 16 ≤ s.pc.t.val
  /-- The memory's canonical form. -/
  mem_wf : s.mem.wf
  /-- R62. -/
  mem_inBuffer : s.mem.inBuffer s.params
  /-- R319. -/
  mem_wholeWords : s.mem.wholeWords

/-- The host has met its duty for a message of `len` bytes: every byte below it has been written since reset
(70_reset_and_hazards.md R315, R319). -/
def State.messageWritten (s : State) (len : Nat) : Prop := ∀ i < len, s.mem.written i = true

/-- The buffer holds the message `msg` (00_scope.md R15). -/
def State.holdsMessage (s : State) (msg : List Byte) : Prop :=
  ∀ i (h : i < msg.length), s.mem.get? i = some msg[i]

/-- The two states differ at most in what the host cannot see (10_state.md R46): a..h, W, pc, Lq, NB, and H while
DONE = 0; and in the model's own `rdata`. -/
structure State.HostAgrees (s u : State) : Prop where
  params : s.params = u.params
  status : s.status = u.status
  lenLo : s.lenLo = u.lenLo
  lenHi : s.lenHi = u.lenHi
  mem : s.mem = u.mem
  resets : s.resets = u.resets
  hash : s.status.done = true → s.H = u.H

/-- The phase that follows, and with it blk and t: the successor function of 45_sequencer.md R216, for a computation
of `nb` blocks. -/
def Pc.successor (nb : Nat) (p : Pc) : Pc :=
  if p.phase = 1#3 then ⟨2#3, p.blk, 16⟩
  else if p.phase = 2#3 then (if p.t.val < 63 then ⟨2#3, p.blk, p.t + 1⟩ else ⟨3#3, p.blk, 0⟩)
  else if p.phase = 3#3 then ⟨4#3, p.blk, 0⟩
  else if p.phase = 4#3 then (if p.t.val < 63 then ⟨4#3, p.blk, p.t + 1⟩ else ⟨5#3, p.blk, 0⟩)
  else if p.phase = 5#3 then (if p.blk + 1 < nb then ⟨1#3, p.blk + 1, 0⟩ else ⟨0#3, p.blk, 0⟩)
  else p

end Sys2Proof.Machine
end

