-- ==== Sys2Proof/Certificates/Slice0/Obligations.lean ====
section
/-! DEFINITION. The statements for the provers. Each docstring names the rules of spec/ it formalises. -/

open Sys2Proof Sys2Proof.Machine

/-! ## Encoding -/

/-- Decoding the encoding of a well-formed instruction gives it back, for every instruction, every operand and every
capacity (30_encoding.md sections 1 and 2). -/
def Obligations.DecodeInvertsEncode : Prop :=
  ∀ (p : Params) (i : Instr), i.wf p = true → decode p (encode i) = i

/-- Encoding what was decoded gives the operation back, but for what decoding ignores: off[1:0], and wdata of a read
(format T: 30_encoding.md section 1, 20_memory.md section 3); every phase, reserved ones included, encodes back
(format E: 30_encoding.md section 2, and section 4 for the reserved phases). -/
def Obligations.EncodeInvertsDecode : Prop :=
  (∀ (p : Params) (off : BitVec 32) (w : Word),
    encode (decode p (.transaction ⟨.rd, off, w⟩)) = .transaction ⟨.rd, off &&& 0xFFFFFFFC#32, 0#32⟩ ∧
    encode (decode p (.transaction ⟨.wr, off, w⟩)) = .transaction ⟨.wr, off &&& 0xFFFFFFFC#32, w⟩) ∧
  ∀ (p : Params) (ph : BitVec 3), encode (decode p (.enginePhase ph)) = .enginePhase ph

/-- What the decoder answers is well formed: reserved rows only on offsets that the map of 20_memory.md section 4
reserves, window rows only below MSG_CAP, the reserved command only for CMD >= 2. -/
def Obligations.DecodedInstructionsAreWellFormed : Prop :=
  ∀ (p : Params) (c : Code), (decode p c).wf p = true

/-- R91: KEY = {dir, off[31:2], 0b00}; the decoder gives the row of the opcode table that matches first in table order,
there always is one, and the reserved rows come last. -/
def Obligations.DecodeIsFirstMatchingTableRow : Prop :=
  (∀ t : Transaction, t.key.extractLsb' 32 1 = t.dir.bit ∧ t.key.extractLsb' 2 30 = t.off.extractLsb' 2 30 ∧
    t.key.extractLsb' 0 2 = 0#2) ∧
  (∀ (p : Params) (c : Code),
    ((rowsOf c).find? fun r => r.hits p c).map OpcodeRow.mnemonic = some (decode p c).mnemonic) ∧
  (hostRows.drop 18).map OpcodeRow.mnemonic = ["RD_RSVD", "WR_RSVD"]

/-- R73: the host offset map by byte ranges, for reads and for writes; a read of a reserved offset returns 0 and a
write to one has no effect. -/
def Obligations.OffsetMapFollowsItsRanges : Prop :=
  ∀ (p : Params) (off : BitVec 32) (w : Word),
    let n := off.toNat
    let rd := decodeTransaction p ⟨.rd, off, w⟩
    let wr := decodeTransaction p ⟨.wr, off, w⟩
    (n ≤ 0x3 → rd = .rdCtrl ∧ wr = decodeCommand w) ∧
    (0x4 ≤ n ∧ n ≤ 0x7 → rd = .rdStatus ∧ wr = .wrStatus w) ∧
    (0x8 ≤ n ∧ n ≤ 0xB → rd = .rdLenLo ∧ wr = .wrLenLo w) ∧
    (0xC ≤ n ∧ n ≤ 0xF → rd = .rdLenHi ∧ wr = .wrLenHi w) ∧
    (0x10 ≤ n ∧ n ≤ 0x13 → rd = .rdCapacity ∧ wr = .wrCapacity w) ∧
    (∀ k : Fin 8, n / 4 = 0x40 / 4 + k.val → rd = .rdDigest k ∧ wr = .wrDigest k w) ∧
    (∀ j : Fin 16, n / 4 = 0x80 / 4 + j.val → rd = .rdHex j ∧ wr = .wrHex j w) ∧
    (∀ m : BitVec 29, n / 4 = 0x80000000 / 4 + m.toNat ∧ 4 * m.toNat < p.msgCap →
      rd = .rdMsg m ∧ wr = .wrMsg m w) ∧
    (∀ word : BitVec 30, word.toNat = n / 4 →
      (0x14 ≤ n ∧ n ≤ 0x3F) ∨ (0x60 ≤ n ∧ n ≤ 0x7F) ∨ (0xC0 ≤ n ∧ n ≤ 0x7FFFFFFF) ∨ 0x80000000 + p.msgCap ≤ n →
      rd = .rdRsvd word ∧ wr = .wrRsvd word w ∧
      ∀ s : State, exec rd s = .next { s with rdata := 0x00000000#32 } ∧ exec wr s = .next s)

/-- A transaction at offset o acts as one at o AND 0xFFFFFFFC (20_memory.md section 3). -/
def Obligations.MisalignedOffsetsAlias : Prop :=
  ∀ (p : Params) (d : Dir) (off : BitVec 32) (w : Word),
    decodeTransaction p ⟨d, off, w⟩ = decodeTransaction p ⟨d, off &&& 0xFFFFFFFC#32, w⟩

/-- R93, R94: CMD = wdata[3:0] selects the command, 0 NOP, 1 START, 2 to 15 reserved with no effect; wdata[31:4] is
ignored: any value there behaves as zero. -/
def Obligations.CommandIsSelectedByLowNibble : Prop :=
  ∀ (w : Word) (s : State),
    exec (decodeCommand w) s = exec (decodeCommand (w &&& 0xF#32)) s ∧
    (w.toNat % 16 = 0 → exec (decodeCommand w) s = .next s) ∧
    (w.toNat % 16 = 1 → exec (decodeCommand w) s = exec (.ctrlStart 0#28) s) ∧
    (2 ≤ w.toNat % 16 → exec (decodeCommand w) s = .next s)

/-- Words written out from the tables of 30_encoding.md sections 1 and 2, in the numbering of log 2, decode to the
instructions they stand for, one of each family. -/
def Obligations.TableWordsDecode : Prop :=
  decodeTableWord 40 0x100000000 = some (.ctrlNop 0#28) ∧
  decodeTableWord 72 (0x100000000 + 0x11 * 2 ^ 40) = some (.ctrlStart 1#28) ∧
  decodeTableWord 72 (0x100000000 + 0xFFFFFFF2 * 2 ^ 40) = some (.ctrlRsvd 2#4 0xFFFFFFF#28) ∧
  decodeTableWord 40 0x000000004 = some .rdStatus ∧
  decodeTableWord 72 (0x10000000C + 0x20000000 * 2 ^ 40) = some (.wrLenHi 0x20000000#32) ∧
  decodeTableWord 40 0x00000005C = some (.rdDigest 7) ∧
  decodeTableWord 40 0x0000000BC = some (.rdHex 15) ∧
  decodeTableWord 72 (0x180000000 + 0x61626300 * 2 ^ 40) = some (.wrMsg 0#29 0x61626300#32) ∧
  decodeTableWord 40 0x000000014 = some (.rdRsvd 5#30) ∧
  decodeTableWord 8 1 = some .engSchedLoad ∧ decodeTableWord 8 4 = some .engRound ∧
  decodeTableWord 8 5 = some .engFold ∧ decodeTableWord 8 7 = some (.engRsvd 1#1)

/-! ## Steps, reset and the invariant -/

/-- A step takes the first pending event: a host transaction runs the instruction it decodes to, in the state with that
event taken off; the engine's turn, or no event at all, runs the operation that phase selects while BUSY = 1 and
nothing while BUSY = 0; a reset resets (00_scope.md section 5; the list of events is the model's, log 3). -/
def Obligations.StepTakesTheNextEvent : Prop :=
  ∀ (s : State) (rest : List Event),
    (∀ (t : Transaction) (i : Instr), s.events = .host t :: rest → decodeTransaction s.params t = i →
      step s = exec i { s with events := rest }) ∧
    (∀ i : Instr, s.events = .engine :: rest ∨ (s.events = [] ∧ rest = []) → decode s.params s.engineCode = i →
      step s = exec i { s with events := rest }) ∧
    (s.events = .reset :: rest → step s = .next (State.applyReset { s with events := rest }))

/-- R210: the engine performs the operation its phase selects exactly when BUSY = 1, and when BUSY = 0 its turn changes
nothing; BUSY = 1 exactly when phase is not IDLE. -/
def Obligations.EngineStepsExactlyWhileBusy : Prop :=
  (∀ s : State,
    (s.status.busy = true → exec (decode s.params s.engineCode) s = exec (decodePhase s.pc.phase) s) ∧
    (s.status.busy = false → exec (decode s.params s.engineCode) s = .next s)) ∧
  (decodePhase 1#3 = .engSchedLoad ∧ decodePhase 2#3 = .engSchedExpand ∧ decodePhase 3#3 = .engRoundInit ∧
    decodePhase 4#3 = .engRound ∧ decodePhase 5#3 = .engFold) ∧
  ∀ s : State, s.Inv →
    (s.status.busy = true → s.pc.phase ≠ 0#3) ∧ (s.status.busy = false → s.pc.phase = 0#3)

/-- R310: a reset, in whatever state, sets phase, STATUS and LEN to their reset values and marks every message byte
unwritten, and the same values hold at power-up. (What the model makes of the registers that R310 leaves unspecified,
log 4, is not stated.) -/
def Obligations.ResetEventSetsResetValues : Prop :=
  (∀ s : State, let t := s.applyReset
    t.pc.phase = 0#3 ∧ t.status.busy = false ∧ t.status.done = false ∧ t.status.err = false ∧
      t.status.errcode = 0#4 ∧ t.lenLo = 0x00000000#32 ∧ t.lenHi = 0x00000000#32 ∧ (∀ a, t.mem.written a = false) ∧
      t.params = s.params) ∧
  ∀ p : Params, let t := State.resetWith p
    t.pc.phase = 0#3 ∧ t.status.busy = false ∧ t.status.done = false ∧ t.status.err = false ∧
      t.status.errcode = 0#4 ∧ t.lenLo = 0x00000000#32 ∧ t.lenHi = 0x00000000#32 ∧ ∀ a, t.mem.written a = false

/-- A reset ends a computation in progress: however many turns the engine then has, no step of it occurs, BUSY and
DONE are 0, and every DIGEST and HEX view reads 0 (70_reset_and_hazards.md section 1). -/
def Obligations.ResetAbortsComputation : Prop :=
  ∀ (s : State), s.events = [.reset] →
    ∃ t, step s = .next t ∧ ∀ n, ∃ u, Host.Core.run core n t = .next u ∧ u = t ∧
      u.status.busy = false ∧ u.status.done = false ∧
      (∀ k, exec (.rdDigest k) u = .next { u with rdata := 0#32 }) ∧
      (∀ j, exec (.rdHex j) u = .next { u with rdata := 0#32 })

/-- What the host reads right after reset, for every capacity (70_reset_and_hazards.md section 1: its table of reads,
which it derives from the reset values). -/
def Obligations.HostReadsAfterReset : Prop :=
  ∀ p : Params, let s := State.resetWith p
    exec .rdCtrl s = .next { s with rdata := 0x00000000#32 } ∧
    exec .rdStatus s = .next { s with rdata := 0x00000000#32 } ∧
    exec .rdLenLo s = .next { s with rdata := 0x00000000#32 } ∧
    exec .rdLenHi s = .next { s with rdata := 0x00000000#32 } ∧
    exec .rdCapacity s = .next { s with rdata := BitVec.ofNat 32 p.msgCap } ∧
    (∀ k, exec (.rdDigest k) s = .next { s with rdata := 0x00000000#32 }) ∧
    (∀ j, exec (.rdHex j) s = .next { s with rdata := 0x00000000#32 }) ∧
    (∀ m, ∃ w, exec (.rdMsg m) s = .next { s with rdata := w }) ∧
    (∀ word, exec (.rdRsvd word) s = .next { s with rdata := 0x00000000#32 })

/-- The state after reset meets the invariant, for every capacity. -/
def Obligations.ResetStateMeetsInvariant : Prop := ∀ p : Params, (State.resetWith p).Inv

/-- Every step, of the host, of the engine or a reset, keeps the invariant (10_state.md R38 and the bounds of R27 to
R31, 45_sequencer.md R210; the memory's canonical form; the list of events is the model's, log 3). -/
def Obligations.EveryStepKeepsInvariant : Prop :=
  ∀ s s' : State, s.Inv → step s = .next s' → s'.Inv

/-- A step faults only when the engine performs SCHED_LOAD, only with the fault of an unwritten message word, and is
never refused (60_exceptions.md sections 1 and 4; the list of events is the model's, log 3). -/
def Obligations.OnlySchedLoadStops : Prop :=
  (∀ (i : Instr) (s : State) (f : Fault), exec i s = .fault f → i = .engSchedLoad ∧ ∃ m, f = .unwrittenMessageWord m) ∧
  (∀ (s : State) (f : Fault), step s = .fault f →
    s.status.busy = true ∧ s.pc.phase = 1#3 ∧ ∀ t rest, s.events ≠ .host t :: rest) ∧
  ∀ (s : State) (r : Refusal), step s ≠ .refused r

/-- No step stops a block whose host has met its duty: in a state of the invariant in which every message byte below
Lq has been written, every step answers a next state (60_exceptions.md section 4; a step takes the next of the model's
events, log 3). -/
def Obligations.StepsAreTotalUnderHostDuty : Prop :=
  ∀ s : State, s.Inv → (s.status.busy = true → s.messageWritten s.Lq.toNat) → ∃ t, step s = .next t

/-- R230: a host transaction never faults and never stalls, whatever the state, and it has the effect of the one row it
decodes to; a read returns a word and changes nothing else, and no transaction changes MSG_CAP or what is still to
come. -/
def Obligations.TransactionsNeverFault : Prop :=
  ∀ (s : State) (t : Transaction),
    ∃ u, exec (decodeTransaction s.params t) s = .next u ∧ u.params = s.params ∧ u.events = s.events ∧
      (t.dir = .rd → u = { s with rdata := u.rdata })

/-! ## Commands and errors -/

/-- R233, R317: START, whole: ignored while BUSY = 1; else DONE, ERR and ERRCODE are cleared and the length decides.
H takes the IV ROM, by name; its words are not stated here (ConstantsAreRootsOfPrimes states them, log 14). -/
def Obligations.StartFollowsItsRule : Prop :=
  ∀ (s : State) (hi : BitVec 28),
    let L := s.lenHi.toNat * 2 ^ 32 + s.lenLo.toNat
    (s.status.busy = true → exec (.ctrlStart hi) s = .next s) ∧
    (s.status.busy = false → 2 ^ 61 ≤ L →
      exec (.ctrlStart hi) s = .next { s with status := ⟨false, false, true, 0x1#4⟩ }) ∧
    (s.status.busy = false → L < 2 ^ 61 → s.params.msgCap < L →
      exec (.ctrlStart hi) s = .next { s with status := ⟨false, false, true, 0x2#4⟩ }) ∧
    (s.status.busy = false → L ≤ s.params.msgCap →
      exec (.ctrlStart hi) s = .next { s with
        Lq := BitVec.ofNat 64 L
        NB := (L + 8) / 64 + 1
        H := IV
        pc := ⟨1#3, 0, 0⟩
        status := ⟨true, false, false, 0#4⟩ })

/-- R281: a START while BUSY = 0 with L >= 2^61, that is with LEN_HI[31:29] != 0, is reported as STATUS = 0x00000014
and changes nothing else, so LEN stays readable; no other instruction produces that code. -/
def Obligations.LengthOverflowIsReported : Prop :=
  (∀ (s : State) (hi : BitVec 28), s.status.busy = false → 2 ^ 61 ≤ s.lenHi.toNat * 2 ^ 32 + s.lenLo.toNat →
    ∃ t, exec (.ctrlStart hi) s = .next t ∧ exec .rdStatus t = .next { t with rdata := 0x00000014#32 } ∧
      t = { s with status := t.status }) ∧
  (∀ s : State, 2 ^ 61 ≤ s.lenHi.toNat * 2 ^ 32 + s.lenLo.toNat ↔ s.lenHi.extractLsb' 29 3 ≠ 0#3) ∧
  ∀ (i : Instr) (s t : State), exec i s = .next t → t.status.errcode = 0x1#4 → s.status.errcode ≠ 0x1#4 →
    ∃ hi, i = .ctrlStart hi ∧ s.status.busy = false ∧ 2 ^ 61 ≤ s.lenHi.toNat * 2 ^ 32 + s.lenLo.toNat

/-- R282: a START while BUSY = 0 with MSG_CAP < L < 2^61 is reported as STATUS = 0x00000024, and no other instruction
produces that code; L = MSG_CAP is accepted. -/
def Obligations.LengthCapacityIsReported : Prop :=
  (∀ (s : State) (hi : BitVec 28), s.status.busy = false →
    s.params.msgCap < s.lenHi.toNat * 2 ^ 32 + s.lenLo.toNat → s.lenHi.toNat * 2 ^ 32 + s.lenLo.toNat < 2 ^ 61 →
    ∃ t, exec (.ctrlStart hi) s = .next t ∧ exec .rdStatus t = .next { t with rdata := 0x00000024#32 } ∧
      t = { s with status := t.status }) ∧
  (∀ (s : State) (hi : BitVec 28), s.status.busy = false →
    s.lenHi.toNat * 2 ^ 32 + s.lenLo.toNat = s.params.msgCap →
    ∃ t, exec (.ctrlStart hi) s = .next t ∧ exec .rdStatus t = .next { t with rdata := 0x00000001#32 }) ∧
  ∀ (i : Instr) (s t : State), exec i s = .next t → t.status.errcode = 0x2#4 → s.status.errcode ≠ 0x2#4 →
    ∃ hi, i = .ctrlStart hi ∧ s.status.busy = false ∧ s.params.msgCap < s.lenHi.toNat * 2 ^ 32 + s.lenLo.toNat ∧
      s.lenHi.toNat * 2 ^ 32 + s.lenLo.toNat < 2 ^ 61

/-- R283, R284: a START that raises an error records ERR and the code, overflow before capacity, with DONE cleared by
the same START, and changes nothing else; the result views then read 0. -/
def Obligations.ErrorRecordsOnlyStatus : Prop :=
  ∀ (s : State) (hi : BitVec 28), s.status.busy = false →
    let L := s.lenHi.toNat * 2 ^ 32 + s.lenLo.toNat
    (2 ^ 61 ≤ L → s.params.msgCap < L) ∧
    (s.params.msgCap < L → ∃ t, exec (.ctrlStart hi) s = .next t ∧ t = { s with status := t.status } ∧
      t.status.busy = false ∧ t.status.done = false ∧ t.status.err = true ∧
      t.status.errcode = (if 2 ^ 61 ≤ L then 0x1#4 else 0x2#4) ∧
      (∀ k, exec (.rdDigest k) t = .next { t with rdata := 0#32 }) ∧
      (∀ j, exec (.rdHex j) t = .next { t with rdata := 0#32 }))

/-- ERR and ERRCODE change only by a START while BUSY = 0 or by a reset (60_exceptions.md sections 1 and 4; the list of
events is the model's, log 3). -/
def Obligations.ErrorFlagsLastUntilStartOrReset : Prop :=
  ∀ s t : State, step s = .next t →
    (t.status.err = s.status.err ∧ t.status.errcode = s.status.errcode) ∨
    (∃ rest, s.events = .reset :: rest) ∨
    (s.status.busy = false ∧ ∃ tr rest hi, s.events = .host tr :: rest ∧
      decodeTransaction s.params tr = .ctrlStart hi)

/-- A stale LEN_HI: for any non-zero LEN_HI, whatever LEN_LO, a START while BUSY = 0 raises an error
(70_reset_and_hazards.md section 3). -/
def Obligations.StaleHighLengthRaisesError : Prop :=
  ∀ (s : State) (hi : BitVec 28), s.status.busy = false → s.lenHi ≠ 0#32 →
    ∃ t, exec (.ctrlStart hi) s = .next t ∧ t.status.err = true ∧ t.status.busy = false

/-! ## Transactions -/

/-- R231, R232, R236, R242, R244, R246, R250: NOP, a reserved command and a write to a read-only or reserved offset
change nothing, in every state. -/
def Obligations.TransactionsWithoutEffect : Prop :=
  ∀ s : State,
    (∀ hi, exec (.ctrlNop hi) s = .next s) ∧ (∀ cmd hi, exec (.ctrlRsvd cmd hi) s = .next s) ∧
    (∀ w, exec (.wrStatus w) s = .next s) ∧ (∀ w, exec (.wrCapacity w) s = .next s) ∧
    (∀ k w, exec (.wrDigest k w) s = .next s) ∧ (∀ j w, exec (.wrHex j w) s = .next s) ∧
    (∀ word w, exec (.wrRsvd word w) s = .next s)

/-- In phase IDLE and in a reserved phase the engine takes no step: nothing changes (45_sequencer.md section opening,
30_encoding.md section 4; that a stuck engine is a next state is the model's reading, log 10). -/
def Obligations.IdleAndReservedPhasesTakeNoStep : Prop :=
  ∀ s : State, exec .engIdle s = .next s ∧ ∀ low, exec (.engRsvd low) s = .next s

/-- R234, R238, R240, R241, R249: the reads of CTRL, LEN_LO, LEN_HI, CAPACITY and reserved offsets return their word
and change nothing else (where rdata is held is the model's, log 5). -/
def Obligations.RegisterReadsReturnTheirWord : Prop :=
  ∀ s : State,
    exec .rdCtrl s = .next { s with rdata := 0x00000000#32 } ∧
    exec .rdLenLo s = .next { s with rdata := s.lenLo } ∧
    exec .rdLenHi s = .next { s with rdata := s.lenHi } ∧
    exec .rdCapacity s = .next { s with rdata := BitVec.ofNat 32 s.params.msgCap } ∧
    (∀ word, exec (.rdRsvd word) s = .next { s with rdata := 0x00000000#32 })

/-- R235, R95, R37: RD_STATUS returns {ERRCODE, 0, ERR, DONE, BUSY} with zeros above, and changes nothing else. -/
def Obligations.StatusReadsItsFields : Prop :=
  ∀ s : State, ∃ t, exec .rdStatus s = .next t ∧ t = { s with rdata := t.rdata } ∧
    t.rdata.getLsbD 0 = s.status.busy ∧ t.rdata.getLsbD 1 = s.status.done ∧ t.rdata.getLsbD 2 = s.status.err ∧
    t.rdata.getLsbD 3 = false ∧ t.rdata.extractLsb' 4 4 = s.status.errcode ∧ t.rdata.extractLsb' 8 24 = 0#24

/-- In the states of the invariant STATUS reads one of five words: idle, busy, done, overflow, capacity, and each
means what it says (46_host_interface.md section 2 and 10_state.md section 4, where the spec derives it). -/
def Obligations.StatusReadsOneOfFiveWords : Prop :=
  ∀ s : State, s.Inv → ∃ w, exec .rdStatus s = .next { s with rdata := w } ∧
    (w = 0x00000000#32 ∨ w = 0x00000001#32 ∨ w = 0x00000002#32 ∨ w = 0x00000014#32 ∨ w = 0x00000024#32) ∧
    (w = 0x00000001#32 ↔ s.pc.phase ≠ 0#3) ∧ (w = 0x00000002#32 ↔ s.status.done = true) ∧
    (w = 0x00000014#32 ↔ s.status.errcode = 0x1#4) ∧ (w = 0x00000024#32 ↔ s.status.errcode = 0x2#4)

/-- R237, R239: a write of LEN_LO or LEN_HI stores the word while BUSY = 0 and is discarded while BUSY = 1. -/
def Obligations.LengthWritesStoreOnlyWhileIdle : Prop :=
  ∀ (s : State) (w : Word),
    (s.status.busy = false → exec (.wrLenLo w) s = .next { s with lenLo := w } ∧
      exec (.wrLenHi w) s = .next { s with lenHi := w }) ∧
    (s.status.busy = true → exec (.wrLenLo w) s = .next s ∧ exec (.wrLenHi w) s = .next s)

/-- R247, R65: WR_MSG while BUSY = 0 stores the word's lanes at message bytes 4m to 4m + 3, lane 0 (bits [31:24])
lowest, and leaves every other byte and all else alone; while BUSY = 1 it has no effect. -/
def Obligations.MessageWriteStoresOneWord : Prop :=
  ∀ (s : State) (m : BitVec 29) (w : Word), ∃ t, exec (.wrMsg m w) s = .next t ∧ t = { s with mem := t.mem } ∧
    (s.status.busy = true → t = s) ∧
    (s.status.busy = false →
      t.mem.get? (4 * m.toNat) = some (w.extractLsb' 24 8) ∧
      t.mem.get? (4 * m.toNat + 1) = some (w.extractLsb' 16 8) ∧
      t.mem.get? (4 * m.toNat + 2) = some (w.extractLsb' 8 8) ∧
      t.mem.get? (4 * m.toNat + 3) = some (w.extractLsb' 0 8) ∧
      ∀ a, a < 4 * m.toNat ∨ 4 * m.toNat + 4 ≤ a → t.mem.get? a = s.mem.get? a)

/-- R248: RD_MSG returns the stored word in every state, BUSY = 1 included, and changes nothing else: each byte that
has been written is in its lane, and the word just written is read back. -/
def Obligations.MessageReadReturnsStoredWord : Prop :=
  (∀ (s : State) (m : BitVec 29), ∃ t, exec (.rdMsg m) s = .next t ∧ t = { s with rdata := t.rdata } ∧
    ∀ (j : Fin 4) (b : Byte), s.mem.get? (4 * m.toNat + j.val) = some b →
      t.rdata.extractLsb' (24 - 8 * j.val) 8 = b) ∧
  ∀ (s t : State) (m : BitVec 29) (w : Word), s.status.busy = false → exec (.wrMsg m w) s = .next t →
    exec (.rdMsg m) t = .next { t with rdata := w }

/-- R72: no read has a side effect and every read is idempotent; writes to LEN and to the buffer only store their word,
while BUSY = 0, and change nothing while BUSY = 1; writes to read-only and reserved offsets have no effect. -/
def Obligations.ReadsHaveNoSideEffect : Prop :=
  (∀ (i : Instr) (s : State), i.isRead = true → ∃ w, exec i s = .next { s with rdata := w } ∧
    ∀ v, exec i { s with rdata := v } = .next { s with rdata := w }) ∧
  (∀ (s : State) (m : BitVec 29) (w : Word),
    (s.status.busy = false → exec (.wrLenLo w) s = .next { s with lenLo := w } ∧
      exec (.wrLenHi w) s = .next { s with lenHi := w } ∧
      exec (.wrMsg m w) s = .next { s with mem := s.mem.setWord (4 * m.toNat) w }) ∧
    (s.status.busy = true → exec (.wrLenLo w) s = .next s ∧ exec (.wrLenHi w) s = .next s ∧
      exec (.wrMsg m w) s = .next s)) ∧
  (∀ (s : State) (w : Word), exec (.wrStatus w) s = .next s ∧ exec (.wrCapacity w) s = .next s ∧
    (∀ k, exec (.wrDigest k w) s = .next s) ∧ (∀ j, exec (.wrHex j w) s = .next s) ∧
    (∀ word, exec (.wrRsvd word w) s = .next s))

/-! ## Results -/

/-- R243, R191: RD_DIGEST returns H[k] when DONE = 1 and 0 when DONE = 0, and changes nothing else; the lanes of the
word, high to low, are the bytes H[k][31:24], H[k][23:16], H[k][15:8], H[k][7:0] of ENCODE(H). -/
def Obligations.DigestReadsHashWord : Prop :=
  ∀ (s : State) (k : Fin 8),
    (s.status.done = true → exec (.rdDigest k) s = .next { s with rdata := s.H[k.val] } ∧
      ∀ j : Fin 4, s.H[k.val].extractLsb' (24 - 8 * j.val) 8 =
        digestByte s.H ⟨4 * k.val + j.val, by have := k.isLt; have := j.isLt; omega⟩) ∧
    (s.status.done = false → exec (.rdDigest k) s = .next { s with rdata := 0x00000000#32 })

/-- RD_HEX returns, when DONE = 1, four characters of the digest, most significant nibble first: character
c of HEX_j renders nibble 4(j mod 2) + c of H[j div 2], counted from the top, as 0x30 + v for v < 10 and as
0x61 + (v - 10) otherwise; when DONE = 0 it returns 0. It changes nothing else (44_serializer.md section 2,
46_host_interface.md section 3; the character codes are R192's, general knowledge in the spec itself, log 15). -/
def Obligations.HexReadsRenderDigest : Prop :=
  ∀ (s : State) (j : Fin 16),
    (s.status.done = true → ∃ t, exec (.rdHex j) s = .next t ∧ t = { s with rdata := t.rdata } ∧
      ∀ c : Fin 4,
        let v := (s.H[j.val / 2]'(by have := j.isLt; omega)).toNat / 16 ^ (7 - (4 * (j.val % 2) + c.val)) % 16
        t.rdata.toNat / 256 ^ (3 - c.val) % 256 = if v < 10 then 0x30 + v else 0x61 + (v - 10)) ∧
    (s.status.done = false → exec (.rdHex j) s = .next { s with rdata := 0x00000000#32 })

/-- The sixteen HEX words determine the digest: two states with DONE = 1 that read the same HEX words have the same H
(44_serializer.md section 2). -/
def Obligations.HexReadsDetermineDigest : Prop :=
  ∀ s u : State, s.status.done = true → u.status.done = true →
    (∀ (j : Fin 16) (s' u' : State), exec (.rdHex j) s = .next s' → exec (.rdHex j) u = .next u' →
      s'.rdata = u'.rdata) → s.H = u.H

/-- R195: while DONE = 0 every DIGEST_k and HEX_j reads 0; that covers a computation in progress and a START that
raised an error. -/
def Obligations.NoPartialResults : Prop :=
  (∀ s : State, s.status.done = false →
    (∀ k, exec (.rdDigest k) s = .next { s with rdata := 0x00000000#32 }) ∧
    (∀ j, exec (.rdHex j) s = .next { s with rdata := 0x00000000#32 })) ∧
  (∀ s : State, s.Inv → s.status.busy = true ∨ s.status.err = true → s.status.done = false) ∧
  ∀ p : Params, (State.resetWith p).status.done = false

/-! ## The padder -/

/-- N is the smallest multiple of 64 that is at least L + 9, and NB = N / 64 (41_padder.md section 1,
where the spec derives it from its formula). -/
def Obligations.PaddedLengthIsLeastMultiple : Prop :=
  ∀ L : Nat, 64 ∣ padLen L ∧ L + 9 ≤ padLen L ∧ (∀ n, 64 ∣ n → L + 9 ≤ n → padLen L ≤ n) ∧
    padLen L = ((L + 8) / 64 + 1) * 64 ∧ blocksOf L = padLen L / 64

/-- For every length START accepts (41_padder.md section 3, where the spec derives it), N mod 64 = 0, Lq + 9 <= N <=
Lq + 72, the marker is 0x80, the last 8 bytes spell BL = 8 * Lq big-endian, and the bytes below Lq are the message's;
the bytes between are 0x00. -/
def Obligations.PaddingInvariants : Prop :=
  ∀ s : State, s.Lq.toNat ≤ s.params.msgCap →
    let L := s.Lq.toNat
    let N := padLen L
    N % 64 = 0 ∧ L + 9 ≤ N ∧ N ≤ L + 72 ∧ s.padByte L = 0x80#8 ∧
    ((List.range 8).foldl (fun v k => 256 * v + (s.padByte (N - 8 + k)).toNat) 0 = 8 * L) ∧
    (∀ i, i < L → s.padByte i = s.msgByte i) ∧ (∀ i, L < i → i < N - 8 → s.padByte i = 0x00#8)

/-- R123: the padded bytes of a buffer that holds a message are message, marker, zero fill and big-endian bit length:
the reference padding, byte for byte. -/
def Obligations.PadderComputesReferencePadding : Prop :=
  ∀ (s : State) (msg : List Byte), s.holdsMessage msg → s.Lq.toNat = msg.length → msg.length ≤ s.params.msgCap →
    (List.range (padLen msg.length)).map s.padByte = Reference.pad msg

/-- Buffer bytes at or beyond Lq never matter: two states with the same Lq whose written bytes below Lq agree give the
same outcome of SCHED_LOAD on the same block, word for word (41_padder.md section 3). -/
def Obligations.BytesBeyondLengthDoNotMatter : Prop :=
  ∀ s u : State, s.Lq = u.Lq → s.pc = u.pc → s.Lq.toNat ≤ s.params.msgCap → s.pc.blk < blocksOf s.Lq.toNat →
    (∀ i, i < s.Lq.toNat → s.mem.get? i = u.mem.get? i) →
    (∀ f, exec .engSchedLoad s = .fault f ↔ exec .engSchedLoad u = .fault f) ∧
    ∀ s' u', exec .engSchedLoad s = .next s' → exec .engSchedLoad u = .next u' →
      ∀ (i : Fin 64), i.val < 16 → s'.W[i.val] = u'.W[i.val]

/-! ## The engine's operations -/

/-- R145: SCHED_LOAD sets W[0..15] to the block's padded words, big-endian, and pc to (SCHED_EXPAND, blk, 16), and
changes nothing else; where all four bytes lie below Lq the word is MSGW[16 blk + t]; in the last block W[14] and
W[15] hold BL[63:32] and BL[31:0]. -/
def Obligations.SchedLoadFillsFirstWords : Prop :=
  ∀ s : State, (∀ i, 64 * s.pc.blk ≤ i → i < 64 * s.pc.blk + 64 → i < s.Lq.toNat → s.mem.written i = true) →
    ∃ t, exec .engSchedLoad s = .next t ∧ t = { s with W := t.W, pc := ⟨2#3, s.pc.blk, 16⟩ } ∧
      (∀ i : Fin 64, i.val < 16 → ∀ j : Fin 4,
        t.W[i.val].extractLsb' (24 - 8 * j.val) 8 = s.padByte (64 * s.pc.blk + 4 * i.val + j.val)) ∧
      (∀ i : Fin 64, 16 ≤ i.val → t.W[i.val] = s.W[i.val]) ∧
      (∀ i : Fin 64, i.val < 16 → 64 * s.pc.blk + 4 * i.val + 3 < s.Lq.toNat →
        t.W[i.val] = s.msgWord (16 * s.pc.blk + i.val)) ∧
      (s.Lq.toNat ≤ s.params.msgCap → s.pc.blk + 1 = blocksOf s.Lq.toNat →
        t.W[14].toNat * 2 ^ 32 + t.W[15].toNat = 8 * s.Lq.toNat)

/-- SCHED_LOAD stops with the model fault exactly when it would read a byte below Lq of a message word whose written bit
is clear; reset clears every written bit and WR_MSG while BUSY = 0 sets its word's; bytes at or beyond Lq are never
read (70_reset_and_hazards.md section 3). That the fault names such a word is the model's (log 7), and so is reading a
word's written bit off each of its bytes, in states outside the invariant too (log 22). -/
def Obligations.SchedLoadFaultsOnUnwrittenWord : Prop :=
  (∀ s : State, (∃ f, exec .engSchedLoad s = .fault f) ↔
    ∃ i, 64 * s.pc.blk ≤ i ∧ i < 64 * s.pc.blk + 64 ∧ i < s.Lq.toNat ∧ s.mem.written i = false) ∧
  (∀ (s : State) (m : Nat), exec .engSchedLoad s = .fault (.unwrittenMessageWord m) →
    ∃ i, i / 4 = m ∧ i < s.Lq.toNat ∧ s.mem.written i = false) ∧
  (∀ (s : State) (a : Nat), s.applyReset.mem.written a = false) ∧
  ∀ (s : State) (m : BitVec 29) (w : Word), s.status.busy = false → ∃ t, exec (.wrMsg m w) s = .next t ∧
    ∀ a, t.mem.written a = (decide (a / 4 = m.toNat) || s.mem.written a)

/-- R146: SCHED_EXPAND, for t in [16, 64), sets W[t] to sigma1(W[t-2]) + W[t-7] + sigma0(W[t-15]) + W[t-16] mod 2^32,
moves to t + 1 or from 63 to ROUND_INIT, and changes nothing else. The sigmas are written out with rotations (R142,
R143). -/
def Obligations.SchedExpandDerivesNextWord : Prop :=
  ∀ (s : State) (h : 16 ≤ s.pc.t.val),
    let w2 := s.W[s.pc.t.val - 2]'(by have := s.pc.t.isLt; omega)
    let w7 := s.W[s.pc.t.val - 7]'(by have := s.pc.t.isLt; omega)
    let w15 := s.W[s.pc.t.val - 15]'(by have := s.pc.t.isLt; omega)
    let w16 := s.W[s.pc.t.val - 16]'(by have := s.pc.t.isLt; omega)
    ∃ t, exec .engSchedExpand s = .next t ∧ t = { s with W := t.W, pc := t.pc } ∧
      t.W[s.pc.t.val] = (w2.rotateRight 17 ^^^ w2.rotateRight 19 ^^^ (w2 >>> 10)) + w7 +
        (w15.rotateRight 7 ^^^ w15.rotateRight 18 ^^^ (w15 >>> 3)) + w16 ∧
      (∀ i : Fin 64, i ≠ s.pc.t → t.W[i.val] = s.W[i.val]) ∧
      (s.pc.t.val < 63 → t.pc.phase = 2#3 ∧ t.pc.blk = s.pc.blk ∧ t.pc.t.val = s.pc.t.val + 1) ∧
      (s.pc.t.val = 63 → t.pc = ⟨3#3, s.pc.blk, 0⟩)

/-- R166: ROUND_INIT copies H[0..7] to a..h, moves to (ROUND, blk, 0), and changes nothing else. -/
def Obligations.RoundInitCopiesHash : Prop :=
  ∀ s : State, exec .engRoundInit s = .next { s with
    work := ⟨s.H[0], s.H[1], s.H[2], s.H[3], s.H[4], s.H[5], s.H[6], s.H[7]⟩
    pc := ⟨4#3, s.pc.blk, 0⟩ }

/-- R167: ROUND computes T1 and T2 from the values before the round and shifts the chain, moves to t + 1 or from 63 to
FOLD, and changes nothing else. Sigma1, Ch, Sigma0 and Maj are written out (R162 to R165). -/
def Obligations.RoundFollowsItsRule : Prop :=
  ∀ s : State,
    let v := s.work
    let T1 := v.h + (v.e.rotateRight 6 ^^^ v.e.rotateRight 11 ^^^ v.e.rotateRight 25) +
      ((v.e &&& v.f) ^^^ ((v.e ^^^ 0xFFFFFFFF#32) &&& v.g)) + roundConstants.getD s.pc.t.val 0#32 + s.W[s.pc.t.val]
    let T2 := (v.a.rotateRight 2 ^^^ v.a.rotateRight 13 ^^^ v.a.rotateRight 22) +
      ((v.a &&& v.b) ^^^ (v.a &&& v.c) ^^^ (v.b &&& v.c))
    ∃ t, exec .engRound s = .next t ∧
      t = { s with work := ⟨T1 + T2, v.a, v.b, v.c, v.d + T1, v.e, v.f, v.g⟩, pc := t.pc } ∧
      (s.pc.t.val < 63 → t.pc.phase = 4#3 ∧ t.pc.blk = s.pc.blk ∧ t.pc.t.val = s.pc.t.val + 1) ∧
      (s.pc.t.val = 63 → t.pc = ⟨5#3, s.pc.blk, 0⟩)

/-- R168: FOLD adds a..h into H[0..7], each sum mod 2^32 on its own; then the next block, or after the last one
BUSY <- 0, DONE <- 1 and pc <- (IDLE, blk, t). Nothing else changes. -/
def Obligations.FoldAddsWorkIntoHash : Prop :=
  ∀ s : State, ∃ t, exec .engFold s = .next t ∧ t = { s with H := t.H, pc := t.pc, status := t.status } ∧
    (∀ k : Fin 8, t.H[k.val].toNat = (s.H[k.val].toNat +
      ([s.work.a, s.work.b, s.work.c, s.work.d, s.work.e, s.work.f, s.work.g, s.work.h].getD k.val 0).toNat)
        % 2 ^ 32) ∧
    (s.pc.blk + 1 < s.NB → t.pc = ⟨1#3, s.pc.blk + 1, 0⟩ ∧ t.status = s.status) ∧
    (s.NB ≤ s.pc.blk + 1 → t.pc = ⟨0#3, s.pc.blk, s.pc.t⟩ ∧
      t.status = { s.status with busy := false, done := true })

/-- R162, R163: bit by bit, Ch selects y where x is 1 and z where x is 0, and Maj is the majority of its inputs. -/
def Obligations.ChSelectsAndMajVotes : Prop :=
  ∀ (x y z : Word) (i : Nat), i < 32 →
    (ch x y z).getLsbD i = (if x.getLsbD i then y.getLsbD i else z.getLsbD i) ∧
    (maj x y z).getLsbD i =
      decide (2 ≤ (x.getLsbD i).toNat + (y.getLsbD i).toNat + (z.getLsbD i).toNat)

/-- The 64 round constants and the 8 initial hash words are what 43_compressor.md section 1 says they are: the first 32
bits of the fractional parts of the cube roots of the first 64 primes, and of the square roots of the first 8. (The
values are general knowledge in the spec itself, log 14.) -/
def Obligations.ConstantsAreRootsOfPrimes : Prop :=
  (∀ n, n < 312 → (n ∈ firstPrimes ↔ n.Prime)) ∧ firstPrimes.Pairwise (· < ·) ∧ firstPrimes.length = 64 ∧
  (∀ t : Fin 64, ∃ r, r ^ 3 ≤ firstPrimes.getD t.val 0 * 2 ^ 96 ∧ firstPrimes.getD t.val 0 * 2 ^ 96 < (r + 1) ^ 3 ∧
    (K t).toNat = r % 2 ^ 32) ∧
  ∀ k : Fin 8, ∃ r, r ^ 2 ≤ firstPrimes.getD k.val 0 * 2 ^ 64 ∧ firstPrimes.getD k.val 0 * 2 ^ 64 < (r + 1) ^ 2 ∧
    IV[k.val].toNat = r % 2 ^ 32

/-! ## The sequencer and the whole machine -/

/-- In the states of the invariant each engine step moves pc by the successor function, and after the last FOLD BUSY is 0
and DONE is 1; in IDLE there is no step; an accepted START sets pc to (SCHED_LOAD, 0, 0), and no other transaction
writes pc (45_sequencer.md; that ENG_IDLE, having no step, answers the same state is the model's, log 10). -/
def Obligations.EngineFollowsSuccessorFunction : Prop :=
  (∀ s t : State, s.Inv → s.status.busy = true → exec (decodePhase s.pc.phase) s = .next t →
    t.pc = s.pc.successor s.NB ∧
    (s.pc.phase = 5#3 ∧ s.pc.blk + 1 = s.NB → t.status.busy = false ∧ t.status.done = true) ∧
    (¬(s.pc.phase = 5#3 ∧ s.pc.blk + 1 = s.NB) → t.status = s.status)) ∧
  (∀ s : State, exec .engIdle s = .next s) ∧
  (∀ (s : State) (hi : BitVec 28), s.status.busy = false →
    s.lenHi.toNat * 2 ^ 32 + s.lenLo.toNat ≤ s.params.msgCap →
    ∃ t, exec (.ctrlStart hi) s = .next t ∧ t.pc = ⟨1#3, 0, 0⟩ ∧ t.status.busy = true) ∧
  ∀ (i : Instr) (s t : State), i.isHost = true → exec i s = .next t →
    (¬∃ hi, i = .ctrlStart hi ∧ s.status.busy = false ∧
      s.lenHi.toNat * 2 ^ 32 + s.lenLo.toNat ≤ s.params.msgCap) → t.pc = s.pc

/-- Control flow is data-independent: two blocks that agree on pc, NB and BUSY, whatever their messages, schedules and
hash words, stay in step (45_sequencer.md; that steps with no event pending are engine turns is the model's, log 3). -/
def Obligations.ControlFlowIsDataIndependent : Prop :=
  ∀ (n : Nat) (s u s' u' : State), s.pc = u.pc → s.NB = u.NB → s.status.busy = u.status.busy →
    s.events = [] → u.events = [] →
    Host.Core.run core n s = .next s' → Host.Core.run core n u = .next u' →
    s'.pc = u'.pc ∧ s'.status.busy = u'.status.busy ∧ s'.NB = u'.NB

/-- The engine's operations leave the host's inputs, the latched length, the error flags and the model's own fields
alone (20_memory.md section 1, 10_state.md sections 2 to 4). -/
def Obligations.EngineLeavesHostInputsAlone : Prop :=
  ∀ (i : Instr) (s t : State), i.isHost = false → exec i s = .next t →
    t = { s with work := t.work, H := t.H, W := t.W, pc := t.pc, status := t.status } ∧
    t.status.err = s.status.err ∧ t.status.errcode = s.status.errcode

/-- While BUSY = 1 (20_memory.md section 6, where the spec derives it) no host transaction changes anything but the
word it returns, and no engine step changes the buffer, Lq or NB: the engine's inputs are fixed for the whole
computation. -/
def Obligations.HostCannotDisturbComputation : Prop :=
  (∀ (i : Instr) (s : State), s.status.busy = true → i.isHost = true →
    ∃ w, exec i s = .next { s with rdata := w }) ∧
  ∀ (i : Instr) (s t : State), i.isHost = false → exec i s = .next t →
    t.mem = s.mem ∧ t.Lq = s.Lq ∧ t.NB = s.NB ∧ t.lenLo = s.lenLo ∧ t.lenHi = s.lenHi

/-- H is written only by an accepted START, which loads the IV, by FOLD, and by a reset (10_state.md section 2; the
list of events is the model's, log 3). -/
def Obligations.OnlyStartFoldAndResetWriteHash : Prop :=
  ∀ s t : State, step s = .next t → t.H = s.H ∨ (∃ rest, s.events = .reset :: rest) ∨
    (s.status.busy = false ∧ t.status.busy = true ∧ t.H = IV) ∨
    (s.status.busy = true ∧ s.pc.phase = 5#3 ∧ t.H = folded s.H s.work)

/-- An accepted START sets BUSY, the FOLD of the last block clears it, and nothing else writes it except reset
(10_state.md section 4; the list of events is the model's, log 3). -/
def Obligations.OnlyStartFoldAndResetWriteBusy : Prop :=
  ∀ s t : State, step s = .next t → t.status.busy = s.status.busy ∨
    (∃ rest, s.events = .reset :: rest ∧ t.status.busy = false) ∨
    (s.status.busy = false ∧ t.status.busy = true ∧ t.Lq.toNat ≤ s.params.msgCap ∧
      ∃ tr rest hi, s.events = .host tr :: rest ∧ decodeTransaction s.params tr = .ctrlStart hi) ∨
    (s.status.busy = true ∧ t.status.busy = false ∧ s.pc.phase = 5#3 ∧ s.NB ≤ s.pc.blk + 1)

/-- What the host cannot see it cannot learn: two blocks that agree on what the host sees answer every transaction with
the same word and go on agreeing, whatever their hidden registers hold (10_state.md section 6). -/
def Obligations.HiddenStateIsUnobservable : Prop :=
  ∀ (i : Instr) (s u s' u' : State), i.isHost = true → s.HostAgrees u →
    exec i s = .next s' → exec i u = .next u' →
    s'.HostAgrees u' ∧ (i.isRead = true → s'.rdata = u'.rdata)

/-- The 115 engine steps of one block, SCHED_LOAD to FOLD: they compress the block's padded words into H as the
reference does, and leave the block at its successor (45_sequencer.md, 43_compressor.md section 3; that steps with no
event pending are engine turns is the model's, log 3). -/
def Obligations.BlockCompressesInto115Steps : Prop :=
  ∀ s : State, s.status.busy = true → s.events = [] → s.pc.phase = 1#3 → s.messageWritten s.Lq.toNat →
    ∃ t, Host.Core.run core 115 s = .next t ∧
      t.H.toList = Reference.compress s.H.toList ((List.range 16).map fun j => s.padWord s.pc.blk j) ∧
      t = { s with work := t.work, H := t.H, W := t.W, pc := t.pc, status := t.status } ∧
      (s.pc.blk + 1 < s.NB → t.pc = ⟨1#3, s.pc.blk + 1, 0⟩ ∧ t.status = s.status) ∧
      (s.NB ≤ s.pc.blk + 1 → t.pc = ⟨0#3, s.pc.blk, 0⟩ ∧
        t.status = { s.status with busy := false, done := true })

/-- A computation (45_sequencer.md, where the spec derives it; the engine's turns are the model's, log 3) takes
exactly 115 * NB engine steps: BUSY is 1 before each of them; the last one sets BUSY <- 0, DONE <- 1 and phase <-
IDLE; H then holds the digest, the views show it, and the engine has no further step. -/
def Obligations.ComputationTakesExactly115Steps : Prop :=
  ∀ (s t : State) (hi : BitVec 28) (msg : List Byte), s.status.busy = false → s.events = [] →
    s.holdsMessage msg → s.length.toNat = msg.length → msg.length ≤ s.params.msgCap →
    exec (.ctrlStart hi) s = .next t →
    let steps := 115 * ((msg.length + 8) / 64 + 1)
    (∀ n, n < steps → ∃ u, Host.Core.run core n t = .next u ∧ u.status.busy = true) ∧
    ∃ v, Host.Core.run core steps t = .next v ∧ v.status.busy = false ∧ v.status.done = true ∧ v.pc.phase = 0#3 ∧
      v.H.toList = Reference.hashWords msg ∧
      (∀ k : Fin 8, exec (.rdDigest k) v = .next { v with rdata := (Reference.hashWords msg).getD k.val 0#32 }) ∧
      ∀ n, Host.Core.run core (steps + n) t = .next v

/-- The contract of the block (00_scope.md section 5, where the spec derives it; the pending transactions and the
engine's turns are the model's, log 3): from any idle state of the block, the host writes a message of at most MSG_CAP
bytes and its length and issues START; then the engine's turns bring DONE = 1, and DIGEST_0 to DIGEST_7 read the eight
words whose big-endian serialization is SHA-256 of the message, and HEX_0 to HEX_15 its 64 hexadecimal characters. -/
def Obligations.HashScriptComputesSha256 : Prop :=
  ∀ (s : State) (msg : List Byte), s.status.busy = false → msg.length ≤ s.params.msgCap →
    s.events = scriptEvents (scriptBeginHash msg) →
    ∃ n t, Host.Core.run core n s = .next t ∧ t.status.busy = false ∧ t.status.done = true ∧
      (∀ k : Fin 8, ∃ u, exec (.rdDigest k) t = .next u ∧
        [lane u.rdata 0, lane u.rdata 1, lane u.rdata 2, lane u.rdata 3] =
          ((Reference.digest msg).drop (4 * k.val)).take 4) ∧
      (∀ j : Fin 16, ∃ u, exec (.rdHex j) t = .next u ∧
        [lane u.rdata 0, lane u.rdata 1, lane u.rdata 2, lane u.rdata 3] =
          ((Reference.digestHex msg).drop (4 * j.val)).take 4)
end

