-- ==== Sys2Proof/Laws/Decode.lean ====
section
/-! SUPPORT. The masks of the offset decode as arithmetic, the decode of an offset by ranges, and the fields of an
encoded operation. -/

namespace Sys2Proof

/-! ## Masks that clear low bits -/

/-- AND with the mask that clears the low `k` bits, as arithmetic. -/
theorem toNat_and_clear (o : BitVec 32) (k : Nat) (hk : k ≤ 32) (m : BitVec 32)
    (hm : m = BitVec.allOnes 32 <<< k) : (o &&& m).toNat = o.toNat / 2 ^ k * 2 ^ k := by
  subst hm
  have h : o &&& BitVec.allOnes 32 <<< k = (o >>> k) <<< k := by
    apply BitVec.eq_of_getLsbD_eq
    intro i hi
    simp only [BitVec.getLsbD_and, BitVec.getLsbD_shiftLeft, BitVec.getLsbD_allOnes, BitVec.getLsbD_ushiftRight]
    by_cases h : i < k
    · simp [h]
    · simp [h, hi, show i - k < 32 by omega, show k + (i - k) = i by omega]
  rw [h, BitVec.toNat_shiftLeft, BitVec.toNat_ushiftRight, Nat.shiftRight_eq_div_pow, Nat.shiftLeft_eq]
  apply Nat.mod_eq_of_lt
  exact Nat.lt_of_le_of_lt (Nat.div_mul_le_self _ _) o.isLt

theorem and_FFFFFFFC (o c : BitVec 32) : o &&& 0xFFFFFFFC#32 = c ↔ o.toNat / 4 * 4 = c.toNat := by
  rw [← BitVec.toNat_inj, toNat_and_clear o 2 (by decide) _ (by decide)]; simp only [Nat.reducePow]

theorem and_FFFFFFE0 (o c : BitVec 32) : o &&& 0xFFFFFFE0#32 = c ↔ o.toNat / 32 * 32 = c.toNat := by
  rw [← BitVec.toNat_inj, toNat_and_clear o 5 (by decide) _ (by decide)]; simp only [Nat.reducePow]

theorem and_FFFFFFC0 (o c : BitVec 32) : o &&& 0xFFFFFFC0#32 = c ↔ o.toNat / 64 * 64 = c.toNat := by
  rw [← BitVec.toNat_inj, toNat_and_clear o 6 (by decide) _ (by decide)]; simp only [Nat.reducePow]

theorem and_80000000 (o c : BitVec 32) :
    o &&& 0x80000000#32 = c ↔ o.toNat / 2147483648 * 2147483648 = c.toNat := by
  rw [← BitVec.toNat_inj, toNat_and_clear o 31 (by decide) _ (by decide)]; simp only [Nat.reducePow]

/-! ## The offset decode by ranges -/

theorem Params.msgCap_pos (p : Params) : 4 ≤ p.msgCap := by unfold Params.msgCap Params.msgWords; omega

theorem Params.msgCap_le (p : Params) : p.msgCap ≤ 2147483648 := by
  have := p.lastWord.isLt
  unfold Params.msgCap Params.msgWords; omega

theorem Params.msgCap_mod (p : Params) : p.msgCap % 4 = 0 := by unfold Params.msgCap Params.msgWords; omega

/-- The offset decode (30_encoding.md R92) by the byte ranges of the map (20_memory.md R73). -/
theorem region_eq_ranges (p : Params) (o : BitVec 32) :
    region p o =
      if o.toNat < 4 then .ctrl
      else if o.toNat < 8 then .status
      else if o.toNat < 12 then .lenLo
      else if o.toNat < 16 then .lenHi
      else if o.toNat < 20 then .capacity
      else if 64 ≤ o.toNat ∧ o.toNat < 96 then .digest (o.extractLsb' 2 3).toFin
      else if 128 ≤ o.toNat ∧ o.toNat < 192 then .hex (o.extractLsb' 2 4).toFin
      else if 2147483648 ≤ o.toNat ∧ o.toNat < 2147483648 + p.msgCap then .msg (o.extractLsb' 2 29)
      else .reserved (o.extractLsb' 2 30) := by
  unfold region
  simp only [and_FFFFFFFC, and_FFFFFFE0, and_FFFFFFC0, and_80000000, BitVec.toNat_ofNat]
  have hlt := o.isLt
  have hcap := p.msgCap_le
  have hmod := p.msgCap_mod
  have hm : (o.extractLsb' 2 29).toNat = o.toNat / 4 % 536870912 := by
    simp [BitVec.extractLsb'_toNat, Nat.shiftRight_eq_div_pow]
  rw [hm]
  have e0 : (o.toNat / 4 * 4 = 0 % 2 ^ 32) = (o.toNat < 4) := propext (by omega)
  have e1 : (o.toNat / 4 * 4 = 4 % 2 ^ 32) = (4 ≤ o.toNat ∧ o.toNat < 8) := propext (by omega)
  have e2 : (o.toNat / 4 * 4 = 8 % 2 ^ 32) = (8 ≤ o.toNat ∧ o.toNat < 12) := propext (by omega)
  have e3 : (o.toNat / 4 * 4 = 12 % 2 ^ 32) = (12 ≤ o.toNat ∧ o.toNat < 16) := propext (by omega)
  have e4 : (o.toNat / 4 * 4 = 16 % 2 ^ 32) = (16 ≤ o.toNat ∧ o.toNat < 20) := propext (by omega)
  have e5 : (o.toNat / 32 * 32 = 64 % 2 ^ 32) = (64 ≤ o.toNat ∧ o.toNat < 96) := propext (by omega)
  have e6 : (o.toNat / 64 * 64 = 128 % 2 ^ 32) = (128 ≤ o.toNat ∧ o.toNat < 192) := propext (by omega)
  have e7 : (o.toNat / 2147483648 * 2147483648 = 2147483648 % 2 ^ 32 ∧ 4 * (o.toNat / 4 % 536870912) < p.msgCap) =
      (2147483648 ≤ o.toNat ∧ o.toNat < 2147483648 + p.msgCap) := propext (by omega)
  simp only [e0, e1, e2, e3, e4, e5, e6, e7]
  split
  · rfl
  · repeat' (first | rfl | omega | split)

/-- KEY[31:0] is the offset with bits [1:0] cleared (30_encoding.md R91, 20_memory.md R69). -/
theorem Transaction.key_low (t : Transaction) : t.key.extractLsb' 0 32 = t.off &&& 0xFFFFFFFC#32 := by
  apply BitVec.eq_of_getLsbD_eq
  intro i hi
  simp only [Transaction.key, BitVec.getLsbD_extractLsb', BitVec.getLsbD_append, BitVec.getLsbD_and]
  by_cases h : i < 2
  · have : i = 0 ∨ i = 1 := by omega
    rcases this with rfl | rfl <;> simp
  · have h' : (0xFFFFFFFC#32).getLsbD i = true := by
      interval_cases i <;> first | omega | decide
    simp [hi, h, h', show 2 + (i - 2) = i by omega, show i - 2 < 30 by omega]

theorem Transaction.key_low_toNat (t : Transaction) : (t.key.extractLsb' 0 32).toNat = t.off.toNat / 4 * 4 := by
  rw [Transaction.key_low, toNat_and_clear t.off 2 (by decide) _ (by decide)]; simp only [Nat.reducePow]

/-- A field of an offset from bit 2 upward. -/
theorem offsetField_toNat (o : BitVec 32) (n : Nat) : (o.extractLsb' 2 n).toNat = o.toNat / 4 % 2 ^ n := by
  rw [BitVec.extractLsb'_toNat, Nat.shiftRight_eq_div_pow]

/-- Bits [1:0] of an offset play no part in its region (20_memory.md R69). -/
theorem region_key (p : Params) (t : Transaction) : region p (t.key.extractLsb' 0 32) = region p t.off := by
  have hlow := t.key_low_toNat
  generalize t.key.extractLsb' 0 32 = k at hlow
  generalize t.off = o at hlow
  have hlt := o.isLt
  have hm := p.msgCap_mod
  have field : ∀ n, n ≤ 30 → k.extractLsb' 2 n = o.extractLsb' 2 n := fun n _ => by
    apply BitVec.eq_of_toNat_eq
    rw [offsetField_toNat, offsetField_toNat, hlow]; congr 1; omega
  rw [region_eq_ranges, region_eq_ranges, hlow, field 3 (by decide), field 4 (by decide), field 29 (by decide),
    field 30 (by decide)]
  have e0 : (o.toNat / 4 * 4 < 4) = (o.toNat < 4) := propext (by omega)
  have e1 : (o.toNat / 4 * 4 < 8) = (o.toNat < 8) := propext (by omega)
  have e2 : (o.toNat / 4 * 4 < 12) = (o.toNat < 12) := propext (by omega)
  have e3 : (o.toNat / 4 * 4 < 16) = (o.toNat < 16) := propext (by omega)
  have e4 : (o.toNat / 4 * 4 < 20) = (o.toNat < 20) := propext (by omega)
  have e5 : (64 ≤ o.toNat / 4 * 4 ∧ o.toNat / 4 * 4 < 96) = (64 ≤ o.toNat ∧ o.toNat < 96) := propext (by omega)
  have e6 : (128 ≤ o.toNat / 4 * 4 ∧ o.toNat / 4 * 4 < 192) = (128 ≤ o.toNat ∧ o.toNat < 192) := propext (by omega)
  have e7 : (2147483648 ≤ o.toNat / 4 * 4 ∧ o.toNat / 4 * 4 < 2147483648 + p.msgCap) =
      (2147483648 ≤ o.toNat ∧ o.toNat < 2147483648 + p.msgCap) := propext (by omega)
  simp only [e0, e1, e2, e3, e4, e5, e6, e7]

/-- Decoding a transaction, from its offset. -/
theorem decodeTransaction_rd (p : Params) (off : BitVec 32) (w : Word) :
    decodeTransaction p ⟨.rd, off, w⟩ = readRow (region p off) := congrArg readRow (region_key p ⟨.rd, off, w⟩)

theorem decodeTransaction_wr (p : Params) (off : BitVec 32) (w : Word) :
    decodeTransaction p ⟨.wr, off, w⟩ = writeRow w (region p off) :=
  congrArg (writeRow w) (region_key p ⟨.wr, off, w⟩)

/-! ## The regions of the encoder's offsets -/

theorem digestOffset_toNat (k : Fin 8) : (digestOffset k).toNat = 64 + 4 * k.val := by
  simp only [digestOffset, BitVec.toNat_ofNat]; omega

theorem hexOffset_toNat (j : Fin 16) : (hexOffset j).toNat = 128 + 4 * j.val := by
  simp only [hexOffset, BitVec.toNat_ofNat]; omega

theorem msgOffset_toNat (m : BitVec 29) : (msgOffset m).toNat = 2147483648 + 4 * m.toNat := by
  have := m.isLt
  simp only [msgOffset, BitVec.toNat_append]
  rw [← Nat.shiftLeft_add_eq_or_of_lt (by decide), ← Nat.shiftLeft_add_eq_or_of_lt m.isLt]
  simp [Nat.shiftLeft_eq]; omega

theorem wordOffset_toNat (word : BitVec 30) : (wordOffset word).toNat = 4 * word.toNat := by
  have := word.isLt
  simp only [wordOffset, BitVec.toNat_append]
  rw [← Nat.shiftLeft_add_eq_or_of_lt (by decide)]
  simp [Nat.shiftLeft_eq]; omega

theorem region_digestOffset (p : Params) (k : Fin 8) : region p (digestOffset k) = .digest k := by
  have h : ((digestOffset k).extractLsb' 2 3).toFin = k := Fin.ext (by
    show ((digestOffset k).extractLsb' 2 3).toNat = k.val
    rw [offsetField_toNat, digestOffset_toNat]; omega)
  rw [region_eq_ranges, digestOffset_toNat, h]
  repeat' (first | rfl | omega | split)

theorem region_hexOffset (p : Params) (j : Fin 16) : region p (hexOffset j) = .hex j := by
  have h : ((hexOffset j).extractLsb' 2 4).toFin = j := Fin.ext (by
    show ((hexOffset j).extractLsb' 2 4).toNat = j.val
    rw [offsetField_toNat, hexOffset_toNat]; omega)
  rw [region_eq_ranges, hexOffset_toNat, h]
  repeat' (first | rfl | omega | split)

theorem region_msgOffset {p : Params} {m : BitVec 29} (h : 4 * m.toNat < p.msgCap) :
    region p (msgOffset m) = .msg m := by
  have hm := p.msgCap_mod
  have e : (msgOffset m).extractLsb' 2 29 = m := BitVec.eq_of_toNat_eq (by
    rw [offsetField_toNat, msgOffset_toNat]; have := m.isLt; omega)
  rw [region_eq_ranges, msgOffset_toNat, e]
  repeat' (first | rfl | omega | split)

theorem region_wordOffset {p : Params} {word : BitVec 30} (h : isReservedWord p word = true) :
    region p (wordOffset word) = .reserved word := by
  have e : (wordOffset word).extractLsb' 2 30 = word := BitVec.eq_of_toNat_eq (by
    rw [offsetField_toNat, wordOffset_toNat]; have := word.isLt; omega)
  rw [region_eq_ranges, wordOffset_toNat, e]
  simp only [isReservedWord, Bool.or_eq_true, decide_eq_true_eq] at h
  repeat' (first | rfl | omega | split)

/-- A region's operands are ones its rows admit. -/
theorem region_wf (p : Params) (o : BitVec 32) :
    (readRow (region p o)).wf p = true ∧ (∀ m, region p o = .msg m → 4 * m.toNat < p.msgCap) ∧
    ∀ word, region p o = .reserved word → isReservedWord p word = true := by
  have hlt := o.isLt
  have hc := p.msgCap_le
  have hm := p.msgCap_mod
  have msg : ∀ m, region p o = .msg m → 4 * m.toNat < p.msgCap := by
    intro m h
    unfold region at h
    repeat' split at h
    all_goals try cases h
    rename_i hh; exact hh.2
  have rsvd : ∀ word, region p o = .reserved word → isReservedWord p word = true := by
    intro word h
    rw [region_eq_ranges] at h
    repeat' split at h
    all_goals cases h
    simp only [isReservedWord, offsetField_toNat, Bool.or_eq_true, decide_eq_true_eq]
    omega
  refine ⟨?_, msg, rsvd⟩
  generalize hr : region p o = r at msg rsvd
  cases r <;> first | rfl | exact decide_eq_true (msg _ rfl) | exact rsvd _ rfl

/-! ## A row's match and mask, bit 32 apart from the offset -/

/-- A masked comparison of a key, split into its direction bit and its offset. -/
theorem append_and_eq_iff (b mb cb : BitVec 1) (o mo co : BitVec 32) :
    ((b ++ o : BitVec 33) &&& (mb ++ mo : BitVec 33) = (cb ++ co : BitVec 33)) ↔ b &&& mb = cb ∧ o &&& mo = co := by
  constructor
  · intro h
    have hb : ∀ i, ((b ++ o : BitVec 33) &&& (mb ++ mo : BitVec 33)).getLsbD i = (cb ++ co : BitVec 33).getLsbD i :=
      fun i => by rw [h]
    constructor <;> apply BitVec.eq_of_getLsbD_eq <;> intro i hi
    · obtain rfl : i = 0 := by omega
      have := hb 32
      rw [BitVec.getLsbD_and, BitVec.getLsbD_append, BitVec.getLsbD_append, BitVec.getLsbD_append] at this
      rw [BitVec.getLsbD_and]; exact this
    · have := hb i
      rw [BitVec.getLsbD_and, BitVec.getLsbD_append, BitVec.getLsbD_append, BitVec.getLsbD_append, if_pos hi, if_pos hi,
        if_pos hi] at this
      rw [BitVec.getLsbD_and]; exact this
  · rintro ⟨rfl, rfl⟩
    apply BitVec.eq_of_getLsbD_eq; intro i hi
    simp only [BitVec.getLsbD_append, BitVec.getLsbD_and]
    split <;> rfl

/-- A row's masked comparison (30_encoding.md R91) as one of the direction and one of KEY[31:0]. -/
theorem Transaction.key_and_eq_iff (d : Dir) (off : BitVec 32) (w : Word) {mask c : BitVec 33} (mb cb : BitVec 1)
    (mo co : BitVec 32) (hm : mask = (mb ++ mo : BitVec 33)) (hc : c = (cb ++ co : BitVec 33)) :
    (Transaction.key ⟨d, off, w⟩ &&& mask = c) ↔
      d.bit &&& mb = cb ∧ (Transaction.key ⟨d, off, w⟩).extractLsb' 0 32 &&& mo = co := by
  subst hm hc
  have e : Transaction.key ⟨d, off, w⟩ =
      (d.bit ++ (Transaction.key ⟨d, off, w⟩).extractLsb' 0 32 : BitVec 33) := by
    apply BitVec.eq_of_getLsbD_eq; intro i hi
    simp only [Transaction.key, BitVec.getLsbD_append, BitVec.getLsbD_extractLsb']
    split <;> simp_all
  conv => lhs; rw [e]
  exact append_and_eq_iff ..

/-- The window's range condition reads KEY[30:2]. -/
theorem Transaction.key_window (d : Dir) (off : BitVec 32) (w : Word) :
    (Transaction.key ⟨d, off, w⟩).extractLsb' 2 29 =
      ((Transaction.key ⟨d, off, w⟩).extractLsb' 0 32).extractLsb' 2 29 := by
  apply BitVec.eq_of_getLsbD_eq; intro i hi
  simp only [BitVec.getLsbD_extractLsb']
  simp [hi, show 2 + i < 32 by omega]

/-- wdata AND 0xF, as CMD (30_encoding.md R91, R93). -/
theorem and_F_eq_iff (w : Word) (c : BitVec 4) : w &&& 0xF#32 = (0#28 ++ c : BitVec 32) ↔ w.extractLsb' 0 4 = c := by
  have low : ∀ i, i < 4 → (0xF#32).getLsbD i = true := by decide
  constructor
  · intro h
    apply BitVec.eq_of_getLsbD_eq; intro i hi
    have : (w &&& 0xF#32).getLsbD i = (0#28 ++ c : BitVec 32).getLsbD i := by rw [h]
    rw [BitVec.getLsbD_and, BitVec.getLsbD_append, low i hi, if_pos hi, Bool.and_true] at this
    rw [BitVec.getLsbD_extractLsb', Nat.zero_add, this]; simp [hi]
  · rintro rfl
    apply BitVec.eq_of_getLsbD_eq; intro i hi
    by_cases h : i < 4
    · rw [BitVec.getLsbD_and, BitVec.getLsbD_append, low i h, if_pos h, BitVec.getLsbD_extractLsb']; simp [h]
    · have high : (0xF#32).getLsbD i = false := by interval_cases i <;> first | omega | decide
      rw [BitVec.getLsbD_and, BitVec.getLsbD_append, high, if_neg h]; simp

/-! ## The command word -/

theorem commandWord_low (hi : BitVec 28) (c : BitVec 4) : (hi ++ c : BitVec 32).extractLsb' 0 4 = c := by
  apply BitVec.eq_of_getLsbD_eq
  intro i h
  rw [BitVec.getLsbD_extractLsb', Nat.zero_add, BitVec.getLsbD_append, if_pos h]; simp [h]

theorem commandWord_high (hi : BitVec 28) (c : BitVec 4) : (hi ++ c : BitVec 32).extractLsb' 4 28 = hi := by
  apply BitVec.eq_of_getLsbD_eq
  intro i h
  rw [BitVec.getLsbD_extractLsb', BitVec.getLsbD_append, if_neg (by omega), Nat.add_sub_cancel_left]; simp [h]

end Sys2Proof
end

