-- ==== Sys2Proof/Laws/State.lean ====
section
/-! SUPPORT. One lemma per field per update of State, and per STATUS change: each holds by unfolding the update once,
so that no later proof unfolds it again. -/

namespace Sys2Proof.Machine

/-! ### reply -/

@[simp] theorem State.reply_params (s : State) (w : Word) : (s.reply w).params = s.params := rfl
@[simp] theorem State.reply_work (s : State) (w : Word) : (s.reply w).work = s.work := rfl
@[simp] theorem State.reply_H (s : State) (w : Word) : (s.reply w).H = s.H := rfl
@[simp] theorem State.reply_W (s : State) (w : Word) : (s.reply w).W = s.W := rfl
@[simp] theorem State.reply_pc (s : State) (w : Word) : (s.reply w).pc = s.pc := rfl
@[simp] theorem State.reply_Lq (s : State) (w : Word) : (s.reply w).Lq = s.Lq := rfl
@[simp] theorem State.reply_NB (s : State) (w : Word) : (s.reply w).NB = s.NB := rfl
@[simp] theorem State.reply_status (s : State) (w : Word) : (s.reply w).status = s.status := rfl
@[simp] theorem State.reply_lenLo (s : State) (w : Word) : (s.reply w).lenLo = s.lenLo := rfl
@[simp] theorem State.reply_lenHi (s : State) (w : Word) : (s.reply w).lenHi = s.lenHi := rfl
@[simp] theorem State.reply_mem (s : State) (w : Word) : (s.reply w).mem = s.mem := rfl
@[simp] theorem State.reply_rdata (s : State) (w : Word) : (s.reply w).rdata = w := rfl
@[simp] theorem State.reply_events (s : State) (w : Word) : (s.reply w).events = s.events := rfl
@[simp] theorem State.reply_resets (s : State) (w : Word) : (s.reply w).resets = s.resets := rfl

/-! ### setLenLo -/

@[simp] theorem State.setLenLo_params (s : State) (w : Word) : (s.setLenLo w).params = s.params := rfl
@[simp] theorem State.setLenLo_work (s : State) (w : Word) : (s.setLenLo w).work = s.work := rfl
@[simp] theorem State.setLenLo_H (s : State) (w : Word) : (s.setLenLo w).H = s.H := rfl
@[simp] theorem State.setLenLo_W (s : State) (w : Word) : (s.setLenLo w).W = s.W := rfl
@[simp] theorem State.setLenLo_pc (s : State) (w : Word) : (s.setLenLo w).pc = s.pc := rfl
@[simp] theorem State.setLenLo_Lq (s : State) (w : Word) : (s.setLenLo w).Lq = s.Lq := rfl
@[simp] theorem State.setLenLo_NB (s : State) (w : Word) : (s.setLenLo w).NB = s.NB := rfl
@[simp] theorem State.setLenLo_status (s : State) (w : Word) : (s.setLenLo w).status = s.status := rfl
@[simp] theorem State.setLenLo_lenLo (s : State) (w : Word) : (s.setLenLo w).lenLo = w := rfl
@[simp] theorem State.setLenLo_lenHi (s : State) (w : Word) : (s.setLenLo w).lenHi = s.lenHi := rfl
@[simp] theorem State.setLenLo_mem (s : State) (w : Word) : (s.setLenLo w).mem = s.mem := rfl
@[simp] theorem State.setLenLo_rdata (s : State) (w : Word) : (s.setLenLo w).rdata = s.rdata := rfl
@[simp] theorem State.setLenLo_events (s : State) (w : Word) : (s.setLenLo w).events = s.events := rfl
@[simp] theorem State.setLenLo_resets (s : State) (w : Word) : (s.setLenLo w).resets = s.resets := rfl

/-! ### setLenHi -/

@[simp] theorem State.setLenHi_params (s : State) (w : Word) : (s.setLenHi w).params = s.params := rfl
@[simp] theorem State.setLenHi_work (s : State) (w : Word) : (s.setLenHi w).work = s.work := rfl
@[simp] theorem State.setLenHi_H (s : State) (w : Word) : (s.setLenHi w).H = s.H := rfl
@[simp] theorem State.setLenHi_W (s : State) (w : Word) : (s.setLenHi w).W = s.W := rfl
@[simp] theorem State.setLenHi_pc (s : State) (w : Word) : (s.setLenHi w).pc = s.pc := rfl
@[simp] theorem State.setLenHi_Lq (s : State) (w : Word) : (s.setLenHi w).Lq = s.Lq := rfl
@[simp] theorem State.setLenHi_NB (s : State) (w : Word) : (s.setLenHi w).NB = s.NB := rfl
@[simp] theorem State.setLenHi_status (s : State) (w : Word) : (s.setLenHi w).status = s.status := rfl
@[simp] theorem State.setLenHi_lenLo (s : State) (w : Word) : (s.setLenHi w).lenLo = s.lenLo := rfl
@[simp] theorem State.setLenHi_lenHi (s : State) (w : Word) : (s.setLenHi w).lenHi = w := rfl
@[simp] theorem State.setLenHi_mem (s : State) (w : Word) : (s.setLenHi w).mem = s.mem := rfl
@[simp] theorem State.setLenHi_rdata (s : State) (w : Word) : (s.setLenHi w).rdata = s.rdata := rfl
@[simp] theorem State.setLenHi_events (s : State) (w : Word) : (s.setLenHi w).events = s.events := rfl
@[simp] theorem State.setLenHi_resets (s : State) (w : Word) : (s.setLenHi w).resets = s.resets := rfl

/-! ### setStatus -/

@[simp] theorem State.setStatus_params (s : State) (f : Status) : (s.setStatus f).params = s.params := rfl
@[simp] theorem State.setStatus_work (s : State) (f : Status) : (s.setStatus f).work = s.work := rfl
@[simp] theorem State.setStatus_H (s : State) (f : Status) : (s.setStatus f).H = s.H := rfl
@[simp] theorem State.setStatus_W (s : State) (f : Status) : (s.setStatus f).W = s.W := rfl
@[simp] theorem State.setStatus_pc (s : State) (f : Status) : (s.setStatus f).pc = s.pc := rfl
@[simp] theorem State.setStatus_Lq (s : State) (f : Status) : (s.setStatus f).Lq = s.Lq := rfl
@[simp] theorem State.setStatus_NB (s : State) (f : Status) : (s.setStatus f).NB = s.NB := rfl
@[simp] theorem State.setStatus_status (s : State) (f : Status) : (s.setStatus f).status = f := rfl
@[simp] theorem State.setStatus_lenLo (s : State) (f : Status) : (s.setStatus f).lenLo = s.lenLo := rfl
@[simp] theorem State.setStatus_lenHi (s : State) (f : Status) : (s.setStatus f).lenHi = s.lenHi := rfl
@[simp] theorem State.setStatus_mem (s : State) (f : Status) : (s.setStatus f).mem = s.mem := rfl
@[simp] theorem State.setStatus_rdata (s : State) (f : Status) : (s.setStatus f).rdata = s.rdata := rfl
@[simp] theorem State.setStatus_events (s : State) (f : Status) : (s.setStatus f).events = s.events := rfl
@[simp] theorem State.setStatus_resets (s : State) (f : Status) : (s.setStatus f).resets = s.resets := rfl

/-! ### setH -/

@[simp] theorem State.setH_params (s : State) (h : Vector Word 8) : (s.setH h).params = s.params := rfl
@[simp] theorem State.setH_work (s : State) (h : Vector Word 8) : (s.setH h).work = s.work := rfl
@[simp] theorem State.setH_H (s : State) (h : Vector Word 8) : (s.setH h).H = h := rfl
@[simp] theorem State.setH_W (s : State) (h : Vector Word 8) : (s.setH h).W = s.W := rfl
@[simp] theorem State.setH_pc (s : State) (h : Vector Word 8) : (s.setH h).pc = s.pc := rfl
@[simp] theorem State.setH_Lq (s : State) (h : Vector Word 8) : (s.setH h).Lq = s.Lq := rfl
@[simp] theorem State.setH_NB (s : State) (h : Vector Word 8) : (s.setH h).NB = s.NB := rfl
@[simp] theorem State.setH_status (s : State) (h : Vector Word 8) : (s.setH h).status = s.status := rfl
@[simp] theorem State.setH_lenLo (s : State) (h : Vector Word 8) : (s.setH h).lenLo = s.lenLo := rfl
@[simp] theorem State.setH_lenHi (s : State) (h : Vector Word 8) : (s.setH h).lenHi = s.lenHi := rfl
@[simp] theorem State.setH_mem (s : State) (h : Vector Word 8) : (s.setH h).mem = s.mem := rfl
@[simp] theorem State.setH_rdata (s : State) (h : Vector Word 8) : (s.setH h).rdata = s.rdata := rfl
@[simp] theorem State.setH_events (s : State) (h : Vector Word 8) : (s.setH h).events = s.events := rfl
@[simp] theorem State.setH_resets (s : State) (h : Vector Word 8) : (s.setH h).resets = s.resets := rfl

/-! ### setW -/

@[simp] theorem State.setW_params (s : State) (w : Vector Word 64) : (s.setW w).params = s.params := rfl
@[simp] theorem State.setW_work (s : State) (w : Vector Word 64) : (s.setW w).work = s.work := rfl
@[simp] theorem State.setW_H (s : State) (w : Vector Word 64) : (s.setW w).H = s.H := rfl
@[simp] theorem State.setW_W (s : State) (w : Vector Word 64) : (s.setW w).W = w := rfl
@[simp] theorem State.setW_pc (s : State) (w : Vector Word 64) : (s.setW w).pc = s.pc := rfl
@[simp] theorem State.setW_Lq (s : State) (w : Vector Word 64) : (s.setW w).Lq = s.Lq := rfl
@[simp] theorem State.setW_NB (s : State) (w : Vector Word 64) : (s.setW w).NB = s.NB := rfl
@[simp] theorem State.setW_status (s : State) (w : Vector Word 64) : (s.setW w).status = s.status := rfl
@[simp] theorem State.setW_lenLo (s : State) (w : Vector Word 64) : (s.setW w).lenLo = s.lenLo := rfl
@[simp] theorem State.setW_lenHi (s : State) (w : Vector Word 64) : (s.setW w).lenHi = s.lenHi := rfl
@[simp] theorem State.setW_mem (s : State) (w : Vector Word 64) : (s.setW w).mem = s.mem := rfl
@[simp] theorem State.setW_rdata (s : State) (w : Vector Word 64) : (s.setW w).rdata = s.rdata := rfl
@[simp] theorem State.setW_events (s : State) (w : Vector Word 64) : (s.setW w).events = s.events := rfl
@[simp] theorem State.setW_resets (s : State) (w : Vector Word 64) : (s.setW w).resets = s.resets := rfl

/-! ### setWork -/

@[simp] theorem State.setWork_params (s : State) (v : Work) : (s.setWork v).params = s.params := rfl
@[simp] theorem State.setWork_work (s : State) (v : Work) : (s.setWork v).work = v := rfl
@[simp] theorem State.setWork_H (s : State) (v : Work) : (s.setWork v).H = s.H := rfl
@[simp] theorem State.setWork_W (s : State) (v : Work) : (s.setWork v).W = s.W := rfl
@[simp] theorem State.setWork_pc (s : State) (v : Work) : (s.setWork v).pc = s.pc := rfl
@[simp] theorem State.setWork_Lq (s : State) (v : Work) : (s.setWork v).Lq = s.Lq := rfl
@[simp] theorem State.setWork_NB (s : State) (v : Work) : (s.setWork v).NB = s.NB := rfl
@[simp] theorem State.setWork_status (s : State) (v : Work) : (s.setWork v).status = s.status := rfl
@[simp] theorem State.setWork_lenLo (s : State) (v : Work) : (s.setWork v).lenLo = s.lenLo := rfl
@[simp] theorem State.setWork_lenHi (s : State) (v : Work) : (s.setWork v).lenHi = s.lenHi := rfl
@[simp] theorem State.setWork_mem (s : State) (v : Work) : (s.setWork v).mem = s.mem := rfl
@[simp] theorem State.setWork_rdata (s : State) (v : Work) : (s.setWork v).rdata = s.rdata := rfl
@[simp] theorem State.setWork_events (s : State) (v : Work) : (s.setWork v).events = s.events := rfl
@[simp] theorem State.setWork_resets (s : State) (v : Work) : (s.setWork v).resets = s.resets := rfl

/-! ### setPc -/

@[simp] theorem State.setPc_params (s : State) (p : BitVec 3) (b : Nat) (t : Fin 64) : (s.setPc p b t).params = s.params := rfl
@[simp] theorem State.setPc_work (s : State) (p : BitVec 3) (b : Nat) (t : Fin 64) : (s.setPc p b t).work = s.work := rfl
@[simp] theorem State.setPc_H (s : State) (p : BitVec 3) (b : Nat) (t : Fin 64) : (s.setPc p b t).H = s.H := rfl
@[simp] theorem State.setPc_W (s : State) (p : BitVec 3) (b : Nat) (t : Fin 64) : (s.setPc p b t).W = s.W := rfl
@[simp] theorem State.setPc_pc (s : State) (p : BitVec 3) (b : Nat) (t : Fin 64) : (s.setPc p b t).pc = ⟨p, b, t⟩ := rfl
@[simp] theorem State.setPc_Lq (s : State) (p : BitVec 3) (b : Nat) (t : Fin 64) : (s.setPc p b t).Lq = s.Lq := rfl
@[simp] theorem State.setPc_NB (s : State) (p : BitVec 3) (b : Nat) (t : Fin 64) : (s.setPc p b t).NB = s.NB := rfl
@[simp] theorem State.setPc_status (s : State) (p : BitVec 3) (b : Nat) (t : Fin 64) : (s.setPc p b t).status = s.status := rfl
@[simp] theorem State.setPc_lenLo (s : State) (p : BitVec 3) (b : Nat) (t : Fin 64) : (s.setPc p b t).lenLo = s.lenLo := rfl
@[simp] theorem State.setPc_lenHi (s : State) (p : BitVec 3) (b : Nat) (t : Fin 64) : (s.setPc p b t).lenHi = s.lenHi := rfl
@[simp] theorem State.setPc_mem (s : State) (p : BitVec 3) (b : Nat) (t : Fin 64) : (s.setPc p b t).mem = s.mem := rfl
@[simp] theorem State.setPc_rdata (s : State) (p : BitVec 3) (b : Nat) (t : Fin 64) : (s.setPc p b t).rdata = s.rdata := rfl
@[simp] theorem State.setPc_events (s : State) (p : BitVec 3) (b : Nat) (t : Fin 64) : (s.setPc p b t).events = s.events := rfl
@[simp] theorem State.setPc_resets (s : State) (p : BitVec 3) (b : Nat) (t : Fin 64) : (s.setPc p b t).resets = s.resets := rfl

/-! ### latch -/

@[simp] theorem State.latch_params (s : State) (l : BitVec 64) (n : Nat) : (s.latch l n).params = s.params := rfl
@[simp] theorem State.latch_work (s : State) (l : BitVec 64) (n : Nat) : (s.latch l n).work = s.work := rfl
@[simp] theorem State.latch_H (s : State) (l : BitVec 64) (n : Nat) : (s.latch l n).H = s.H := rfl
@[simp] theorem State.latch_W (s : State) (l : BitVec 64) (n : Nat) : (s.latch l n).W = s.W := rfl
@[simp] theorem State.latch_pc (s : State) (l : BitVec 64) (n : Nat) : (s.latch l n).pc = s.pc := rfl
@[simp] theorem State.latch_Lq (s : State) (l : BitVec 64) (n : Nat) : (s.latch l n).Lq = l := rfl
@[simp] theorem State.latch_NB (s : State) (l : BitVec 64) (n : Nat) : (s.latch l n).NB = n := rfl
@[simp] theorem State.latch_status (s : State) (l : BitVec 64) (n : Nat) : (s.latch l n).status = s.status := rfl
@[simp] theorem State.latch_lenLo (s : State) (l : BitVec 64) (n : Nat) : (s.latch l n).lenLo = s.lenLo := rfl
@[simp] theorem State.latch_lenHi (s : State) (l : BitVec 64) (n : Nat) : (s.latch l n).lenHi = s.lenHi := rfl
@[simp] theorem State.latch_mem (s : State) (l : BitVec 64) (n : Nat) : (s.latch l n).mem = s.mem := rfl
@[simp] theorem State.latch_rdata (s : State) (l : BitVec 64) (n : Nat) : (s.latch l n).rdata = s.rdata := rfl
@[simp] theorem State.latch_events (s : State) (l : BitVec 64) (n : Nat) : (s.latch l n).events = s.events := rfl
@[simp] theorem State.latch_resets (s : State) (l : BitVec 64) (n : Nat) : (s.latch l n).resets = s.resets := rfl

/-! ### raise -/

@[simp] theorem State.raise_params (s : State) (e : ErrorCause) : (s.raise e).params = s.params := rfl
@[simp] theorem State.raise_work (s : State) (e : ErrorCause) : (s.raise e).work = s.work := rfl
@[simp] theorem State.raise_H (s : State) (e : ErrorCause) : (s.raise e).H = s.H := rfl
@[simp] theorem State.raise_W (s : State) (e : ErrorCause) : (s.raise e).W = s.W := rfl
@[simp] theorem State.raise_pc (s : State) (e : ErrorCause) : (s.raise e).pc = s.pc := rfl
@[simp] theorem State.raise_Lq (s : State) (e : ErrorCause) : (s.raise e).Lq = s.Lq := rfl
@[simp] theorem State.raise_NB (s : State) (e : ErrorCause) : (s.raise e).NB = s.NB := rfl
@[simp] theorem State.raise_status (s : State) (e : ErrorCause) : (s.raise e).status = s.status.failed e := rfl
@[simp] theorem State.raise_lenLo (s : State) (e : ErrorCause) : (s.raise e).lenLo = s.lenLo := rfl
@[simp] theorem State.raise_lenHi (s : State) (e : ErrorCause) : (s.raise e).lenHi = s.lenHi := rfl
@[simp] theorem State.raise_mem (s : State) (e : ErrorCause) : (s.raise e).mem = s.mem := rfl
@[simp] theorem State.raise_rdata (s : State) (e : ErrorCause) : (s.raise e).rdata = s.rdata := rfl
@[simp] theorem State.raise_events (s : State) (e : ErrorCause) : (s.raise e).events = s.events := rfl
@[simp] theorem State.raise_resets (s : State) (e : ErrorCause) : (s.raise e).resets = s.resets := rfl

/-! ### start -/

@[simp] theorem State.start_params (s : State) : s.start.params = s.params := rfl
@[simp] theorem State.start_work (s : State) : s.start.work = s.work := rfl
@[simp] theorem State.start_H (s : State) : s.start.H = IV := rfl
@[simp] theorem State.start_W (s : State) : s.start.W = s.W := rfl
@[simp] theorem State.start_pc (s : State) : s.start.pc = ⟨1#3, 0, 0⟩ := rfl
@[simp] theorem State.start_Lq (s : State) : s.start.Lq = s.length := rfl
@[simp] theorem State.start_NB (s : State) : s.start.NB = blocksOf s.length.toNat := rfl
@[simp] theorem State.start_status (s : State) : s.start.status = s.status.begun := rfl
@[simp] theorem State.start_lenLo (s : State) : s.start.lenLo = s.lenLo := rfl
@[simp] theorem State.start_lenHi (s : State) : s.start.lenHi = s.lenHi := rfl
@[simp] theorem State.start_mem (s : State) : s.start.mem = s.mem := rfl
@[simp] theorem State.start_rdata (s : State) : s.start.rdata = s.rdata := rfl
@[simp] theorem State.start_events (s : State) : s.start.events = s.events := rfl
@[simp] theorem State.start_resets (s : State) : s.start.resets = s.resets := rfl

/-! ### popEvent -/

@[simp] theorem State.popEvent_params (s : State) : s.popEvent.params = s.params := rfl
@[simp] theorem State.popEvent_work (s : State) : s.popEvent.work = s.work := rfl
@[simp] theorem State.popEvent_H (s : State) : s.popEvent.H = s.H := rfl
@[simp] theorem State.popEvent_W (s : State) : s.popEvent.W = s.W := rfl
@[simp] theorem State.popEvent_pc (s : State) : s.popEvent.pc = s.pc := rfl
@[simp] theorem State.popEvent_Lq (s : State) : s.popEvent.Lq = s.Lq := rfl
@[simp] theorem State.popEvent_NB (s : State) : s.popEvent.NB = s.NB := rfl
@[simp] theorem State.popEvent_status (s : State) : s.popEvent.status = s.status := rfl
@[simp] theorem State.popEvent_lenLo (s : State) : s.popEvent.lenLo = s.lenLo := rfl
@[simp] theorem State.popEvent_lenHi (s : State) : s.popEvent.lenHi = s.lenHi := rfl
@[simp] theorem State.popEvent_mem (s : State) : s.popEvent.mem = s.mem := rfl
@[simp] theorem State.popEvent_rdata (s : State) : s.popEvent.rdata = s.rdata := rfl
@[simp] theorem State.popEvent_events (s : State) : s.popEvent.events = s.events.tail := rfl
@[simp] theorem State.popEvent_resets (s : State) : s.popEvent.resets = s.resets := rfl

/-! ### applyReset -/

@[simp] theorem State.applyReset_params (s : State) : s.applyReset.params = s.params := rfl
@[simp] theorem State.applyReset_pc (s : State) : s.applyReset.pc = ⟨0#3, 0, 0⟩ := rfl
@[simp] theorem State.applyReset_status (s : State) : s.applyReset.status = ⟨false, false, false, 0#4⟩ := rfl
@[simp] theorem State.applyReset_lenLo (s : State) : s.applyReset.lenLo = 0#32 := rfl
@[simp] theorem State.applyReset_lenHi (s : State) : s.applyReset.lenHi = 0#32 := rfl
@[simp] theorem State.applyReset_mem (s : State) : s.applyReset.mem = [] := rfl
@[simp] theorem State.applyReset_rdata (s : State) : s.applyReset.rdata = s.rdata := rfl
@[simp] theorem State.applyReset_events (s : State) : s.applyReset.events = s.events := rfl
@[simp] theorem State.applyReset_resets (s : State) : s.applyReset.resets = s.resets + 1 := rfl

/-! ### The STATUS fields -/

@[simp] theorem Status.cleared_busy (f : Status) : f.cleared.busy = f.busy := rfl
@[simp] theorem Status.cleared_done (f : Status) : f.cleared.done = false := rfl
@[simp] theorem Status.cleared_err (f : Status) : f.cleared.err = false := rfl
@[simp] theorem Status.cleared_errcode (f : Status) : f.cleared.errcode = 0#4 := rfl

@[simp] theorem Status.failed_busy (f : Status) (e : ErrorCause) : (f.failed e).busy = f.busy := rfl
@[simp] theorem Status.failed_done (f : Status) (e : ErrorCause) : (f.failed e).done = f.done := rfl
@[simp] theorem Status.failed_err (f : Status) (e : ErrorCause) : (f.failed e).err = true := rfl
@[simp] theorem Status.failed_errcode (f : Status) (e : ErrorCause) : (f.failed e).errcode = e.code := rfl

@[simp] theorem Status.begun_busy (f : Status) : f.begun.busy = true := rfl
@[simp] theorem Status.begun_done (f : Status) : f.begun.done = f.done := rfl
@[simp] theorem Status.begun_err (f : Status) : f.begun.err = f.err := rfl
@[simp] theorem Status.begun_errcode (f : Status) : f.begun.errcode = f.errcode := rfl

@[simp] theorem Status.finished_busy (f : Status) : f.finished.busy = false := rfl
@[simp] theorem Status.finished_done (f : Status) : f.finished.done = true := rfl
@[simp] theorem Status.finished_err (f : Status) : f.finished.err = f.err := rfl
@[simp] theorem Status.finished_errcode (f : Status) : f.finished.errcode = f.errcode := rfl

@[simp] theorem State.length_setStatus (s : State) (f : Status) : (s.setStatus f).length = s.length := rfl

end Sys2Proof.Machine
end

