-- ==== Sys2Proof/Laws/Memory.lean ====
section
/-! SUPPORT. The message buffer: read after write, a write leaves every other byte alone, and every memory operation
keeps the canonical form, the bounds and the per-word written bit. -/

namespace Sys2Proof.Machine

/-! ## One byte -/

theorem Memory.get?_set (m : Memory) (a b : Nat) (v : Byte) :
    (m.set a v).get? b = if a = b then some v else m.get? b := by
  induction m with
  | nil => simp [Memory.set, Memory.get?]
  | cons c r ih =>
    obtain ⟨x, w⟩ := c
    by_cases h1 : a < x
    · simp [Memory.set, Memory.get?, h1]
    · by_cases h2 : a = x
      · subst h2
        by_cases h3 : a = b <;> simp [Memory.set, Memory.get?, h3]
      · by_cases h3 : x = b
        · subst h3; simp [Memory.set, Memory.get?, h1, h2]
        · simp [Memory.set, Memory.get?, h1, h2, h3, ih]

theorem Memory.get?_set_self (m : Memory) (a : Nat) (v : Byte) : (m.set a v).get? a = some v := by
  simp [Memory.get?_set]

theorem Memory.get?_set_ne (m : Memory) {a b : Nat} (v : Byte) (h : a ≠ b) : (m.set a v).get? b = m.get? b := by
  simp [Memory.get?_set, h]

theorem Memory.mem_set {m : Memory} {a : Nat} {v : Byte} {c : Host.Cell} (h : c ∈ m.set a v) :
    c = (a, v) ∨ c ∈ m := by
  induction m with
  | nil => simpa [Memory.set] using h
  | cons d r ih =>
    obtain ⟨x, w⟩ := d
    unfold Memory.set at h
    split at h
    · simpa using h
    · split at h
      · simp only [List.mem_cons] at h ⊢; tauto
      · simp only [List.mem_cons] at h ⊢
        rcases h with h | h
        · exact .inr (.inl h)
        · rcases ih h with h | h
          · exact .inl h
          · exact .inr (.inr h)

/-- A write keeps the canonical form. -/
theorem Memory.wf_set {m : Memory} (h : m.wf) (a : Nat) (v : Byte) : (m.set a v).wf := by
  induction m with
  | nil => simp [Memory.set]
  | cons d r ih =>
    obtain ⟨x, w⟩ := d
    obtain ⟨hx, hr⟩ := List.pairwise_cons.mp h
    unfold Memory.set
    split
    · rename_i hlt
      refine List.pairwise_cons.mpr ⟨fun c hc => ?_, h⟩
      rcases List.mem_cons.mp hc with rfl | hc
      · exact hlt
      · exact Nat.lt_trans hlt (hx c hc)
    · split
      · rename_i _ heq
        subst heq
        exact List.pairwise_cons.mpr ⟨hx, hr⟩
      · rename_i hlt hne
        refine List.pairwise_cons.mpr ⟨fun c hc => ?_, ih hr⟩
        rcases Memory.mem_set hc with rfl | hc
        · simp only; omega
        · exact hx c hc

/-! ## One word -/

theorem Memory.get?_setWord (m : Memory) (a b : Nat) (v : Word) :
    (m.setWord a v).get? b = if a ≤ b ∧ b < a + 4 then some (lane v (b - a)) else m.get? b := by
  simp only [Memory.setWord, Memory.get?_set]
  by_cases h0 : b = a
  · subst h0; simp
  · by_cases h1 : b = a + 1
    · subst h1; simp
    · by_cases h2 : b = a + 2
      · subst h2; simp
      · by_cases h3 : b = a + 3
        · subst h3; simp
        · have h : ¬(a ≤ b ∧ b < a + 4) := by omega
          simp [h, Ne.symm h0, Ne.symm h1, Ne.symm h2, Ne.symm h3]

theorem Memory.wf_setWord {m : Memory} (h : m.wf) (a : Nat) (v : Word) : (m.setWord a v).wf :=
  Memory.wf_set (Memory.wf_set (Memory.wf_set (Memory.wf_set h _ _) _ _) _ _) _ _

theorem Memory.mem_setWord {m : Memory} {a : Nat} {v : Word} {c : Host.Cell} (h : c ∈ m.setWord a v) :
    (a ≤ c.1 ∧ c.1 < a + 4) ∨ c ∈ m := by
  rcases Memory.mem_set h with rfl | h
  · exact .inl (by simp)
  rcases Memory.mem_set h with rfl | h
  · exact .inl (by simp)
  rcases Memory.mem_set h with rfl | h
  · exact .inl (by simp)
  rcases Memory.mem_set h with rfl | h
  · exact .inl (by simp)
  · exact .inr h

/-- A word written inside the buffer keeps every byte inside it. -/
theorem Memory.inBuffer_setWord {p : Params} {m : Memory} (h : m.inBuffer p) {a : Nat} (v : Word)
    (ha : a + 4 ≤ p.msgCap) : (m.setWord a v).inBuffer p := fun c hc => by
  rcases Memory.mem_setWord hc with hc | hc
  · omega
  · exact h c hc

theorem Memory.written_setWord (m : Memory) (a b : Nat) (v : Word) :
    (m.setWord a v).written b = (decide (a ≤ b ∧ b < a + 4) || m.written b) := by
  unfold Memory.written
  rw [Memory.get?_setWord]
  by_cases h : a ≤ b ∧ b < a + 4 <;> simp [h]

/-- A word written at a multiple of 4 keeps one written bit for each word. -/
theorem Memory.wholeWords_setWord {m : Memory} (h : m.wholeWords) (k : Nat) (v : Word) :
    (m.setWord (4 * k) v).wholeWords := fun a b hab => by
  simp only [Memory.written_setWord, h a b hab]
  have : (4 * k ≤ a ∧ a < 4 * k + 4) ↔ (4 * k ≤ b ∧ b < 4 * k + 4) := by omega
  simp [this]

/-! ## The state's memory operation -/

/-- All that MemWrite can do (20_memory.md R65). -/
theorem State.memWrite_cases (s : State) (a : Nat) (v : Word) :
    (s.status.busy = true ∧ s.memWrite a v = s) ∨
    (s.status.busy = false ∧ s.memWrite a v = { s with mem := s.mem.setWord a v }) := by
  unfold State.memWrite
  cases h : s.status.busy <;> simp

theorem State.memWrite_mem_wf {s : State} (h : s.mem.wf) (a : Nat) (v : Word) : (s.memWrite a v).mem.wf := by
  rcases s.memWrite_cases a v with ⟨-, e⟩ | ⟨-, e⟩ <;> rw [e]
  · exact h
  · exact Memory.wf_setWord h a v

/-- The memory of reset is in canonical form. -/
theorem State.resetWith_mem_wf (p : Params) : (State.resetWith p).mem.wf := List.Pairwise.nil

/-- So is the memory after a reset event. -/
theorem State.applyReset_mem_wf (s : State) : s.applyReset.mem.wf := List.Pairwise.nil

/-! ## Lanes -/

theorem lane_ofLanes_zero (b0 b1 b2 b3 : Byte) : lane (ofLanes b0 b1 b2 b3) 0 = b0 := by
  apply BitVec.eq_of_getLsbD_eq
  intro i hi
  simp only [lane, ofLanes, BitVec.getLsbD_extractLsb', BitVec.getLsbD_append]
  simp [hi, show ¬(24 + i < 8) by omega, show ¬(24 + i - 8 < 8) by omega, show ¬(24 + i - 8 - 8 < 8) by omega,
    show 24 + i - 8 - 8 - 8 = i by omega]

theorem lane_ofLanes_one (b0 b1 b2 b3 : Byte) : lane (ofLanes b0 b1 b2 b3) 1 = b1 := by
  apply BitVec.eq_of_getLsbD_eq
  intro i hi
  simp only [lane, ofLanes, BitVec.getLsbD_extractLsb', BitVec.getLsbD_append]
  simp [hi, show ¬(16 + i < 8) by omega, show ¬(16 + i - 8 < 8) by omega, show 16 + i - 8 - 8 = i by omega]

theorem lane_ofLanes_two (b0 b1 b2 b3 : Byte) : lane (ofLanes b0 b1 b2 b3) 2 = b2 := by
  apply BitVec.eq_of_getLsbD_eq
  intro i hi
  simp only [lane, ofLanes, BitVec.getLsbD_extractLsb', BitVec.getLsbD_append]
  simp [hi, show ¬(8 + i < 8) by omega, show 8 + i - 8 = i by omega]

theorem lane_ofLanes_three (b0 b1 b2 b3 : Byte) : lane (ofLanes b0 b1 b2 b3) 3 = b3 := by
  apply BitVec.eq_of_getLsbD_eq
  intro i hi
  simp only [lane, ofLanes, BitVec.getLsbD_extractLsb', BitVec.getLsbD_append]
  simp [hi]

/-- A word is its four lanes. -/
theorem ofLanes_lane (w : Word) : ofLanes (lane w 0) (lane w 1) (lane w 2) (lane w 3) = w := by
  apply BitVec.eq_of_getLsbD_eq
  intro i hi
  simp only [lane, ofLanes, BitVec.getLsbD_append, BitVec.getLsbD_extractLsb']
  by_cases h0 : i < 8
  · simp [h0]
  · by_cases h1 : i < 16
    · simp [h0, show i - 8 < 8 by omega, show 8 + (i - 8) = i by omega]
    · by_cases h2 : i < 24
      · simp [h0, show ¬(i - 8 < 8) by omega, show i - 8 - 8 < 8 by omega, show 16 + (i - 8 - 8) = i by omega]
      · simp [h0, show ¬(i - 8 < 8) by omega, show ¬(i - 8 - 8 < 8) by omega, show i - 8 - 8 - 8 < 8 by omega,
          show 24 + (i - 8 - 8 - 8) = i by omega]

/-- MSGW[m] after a word is written there. -/
theorem State.msgWord_setWord (s : State) (m : Nat) (v : Word) :
    State.msgWord { s with mem := s.mem.setWord (4 * m) v } m = v := by
  simp only [State.msgWord, State.msgByte, Memory.get?_setWord]
  simp [ofLanes_lane]

end Sys2Proof.Machine
end

