-- ==== Sys2Proof/Laws/Words.lean ====
section
/-! SUPPORT. The word functions and the views in other words: rotations as Lean's own, lanes and characters as
arithmetic on naturals. -/

namespace Sys2Proof.Machine

/-! ## Rotations (42_scheduler.md R140 to R143, 43_compressor.md R164, R165) -/

theorem rotr_eq_rotateRight (x : Word) {n : Nat} (h : n < 32) : rotr x n = x.rotateRight n := by
  simp [rotr, BitVec.rotateRight, BitVec.rotateRightAux, Nat.mod_eq_of_lt h]

theorem sigma0_eq_rotateRight (x : Word) : sigma0 x = x.rotateRight 7 ^^^ x.rotateRight 18 ^^^ (x >>> 3) := by
  simp only [sigma0, rotr_eq_rotateRight x (show 7 < 32 by decide), rotr_eq_rotateRight x (show 18 < 32 by decide)]

theorem sigma1_eq_rotateRight (x : Word) : sigma1 x = x.rotateRight 17 ^^^ x.rotateRight 19 ^^^ (x >>> 10) := by
  simp only [sigma1, rotr_eq_rotateRight x (show 17 < 32 by decide), rotr_eq_rotateRight x (show 19 < 32 by decide)]

theorem bigSigma0_eq_rotateRight (x : Word) :
    bigSigma0 x = x.rotateRight 2 ^^^ x.rotateRight 13 ^^^ x.rotateRight 22 := by
  simp only [bigSigma0, rotr_eq_rotateRight x (show 2 < 32 by decide), rotr_eq_rotateRight x (show 13 < 32 by decide),
    rotr_eq_rotateRight x (show 22 < 32 by decide)]

theorem bigSigma1_eq_rotateRight (x : Word) :
    bigSigma1 x = x.rotateRight 6 ^^^ x.rotateRight 11 ^^^ x.rotateRight 25 := by
  simp only [bigSigma1, rotr_eq_rotateRight x (show 6 < 32 by decide), rotr_eq_rotateRight x (show 11 < 32 by decide),
    rotr_eq_rotateRight x (show 25 < 32 by decide)]

/-! ## Lanes as arithmetic -/

/-- Lane `j` of a word, most significant first, is its base-256 digit. -/
theorem lane_toNat (v : Word) {j : Nat} (h : j < 4) : (lane v j).toNat = v.toNat / 256 ^ (3 - j) % 256 := by
  rw [lane, BitVec.extractLsb'_toNat, Nat.shiftRight_eq_div_pow, show 24 - 8 * j = 8 * (3 - j) by omega, Nat.pow_mul]

theorem ofLanes_toNat (b0 b1 b2 b3 : Byte) :
    (ofLanes b0 b1 b2 b3).toNat = b0.toNat * 2 ^ 24 + b1.toNat * 2 ^ 16 + b2.toNat * 2 ^ 8 + b3.toNat := by
  have h1 := b1.isLt; have h2 := b2.isLt; have h3 := b3.isLt
  simp only [ofLanes, BitVec.toNat_append]
  rw [← Nat.shiftLeft_add_eq_or_of_lt h3, ← Nat.shiftLeft_add_eq_or_of_lt h2, ← Nat.shiftLeft_add_eq_or_of_lt h1]
  simp only [Nat.shiftLeft_eq]; omega

/-- The four lanes of an assembled word, for a lane number. -/
theorem lane_ofLanes (b : Fin 4 → Byte) (j : Fin 4) : lane (ofLanes (b 0) (b 1) (b 2) (b 3)) j.val = b j := by
  match j with
  | 0 => exact lane_ofLanes_zero _ _ _ _
  | 1 => exact lane_ofLanes_one _ _ _ _
  | 2 => exact lane_ofLanes_two _ _ _ _
  | 3 => exact lane_ofLanes_three _ _ _ _

/-- Words with equal lanes are equal. -/
theorem word_ext_lane {v w : Word} (h : ∀ j : Fin 4, lane v j.val = lane w j.val) : v = w := by
  have h0 : lane v 0 = lane w 0 := h 0
  have h1 : lane v 1 = lane w 1 := h 1
  have h2 : lane v 2 = lane w 2 := h 2
  have h3 : lane v 3 = lane w 3 := h 3
  rw [← ofLanes_lane v, ← ofLanes_lane w, h0, h1, h2, h3]

theorem State.msgWord_lane (s : State) (m : Nat) (j : Fin 4) :
    lane (s.msgWord m) j.val = s.msgByte (4 * m + j.val) :=
  lane_ofLanes (fun j => s.msgByte (4 * m + j.val)) j

theorem State.padWord_lane (s : State) (b t : Nat) (j : Fin 4) :
    lane (s.padWord b t) j.val = s.padByte (64 * b + 4 * t + j.val) :=
  lane_ofLanes (fun j => s.padByte (64 * b + 4 * t + j.val)) j

theorem State.hexView_lane {s : State} (h : s.status.done = true) (j : Fin 16) (c : Fin 4) :
    lane (s.hexView j) c.val = hexStrChar s.H ⟨4 * j.val + c.val, by omega⟩ := by
  unfold State.hexView
  rw [if_pos h]
  exact lane_ofLanes (fun c => hexStrChar s.H ⟨4 * j.val + c.val, by omega⟩) c

/-- The high nibble of a lane. -/
theorem lane_high (w : Word) (j : Nat) : (lane w j).extractLsb' 4 4 = w.extractLsb' (24 - 8 * j + 4) 4 := by
  apply BitVec.eq_of_getLsbD_eq
  intro i hi
  simp [lane, hi, show 4 + i < 8 by omega, Nat.add_assoc]

/-- The low nibble of a lane. -/
theorem lane_low (w : Word) (j : Nat) : (lane w j).extractLsb' 0 4 = w.extractLsb' (24 - 8 * j) 4 := by
  apply BitVec.eq_of_getLsbD_eq
  intro i hi
  simp [lane, hi, show i < 8 by omega]

/-- A character of the rendering is the digit of one nibble of H, most significant first (44_serializer.md R194). -/
theorem hexStrChar_eq (H : Vector Word 8) (j : Fin 16) (c : Fin 4) :
    hexStrChar H ⟨4 * j.val + c.val, by omega⟩ =
      hexChar ((H[j.val / 2]'(by omega)).extractLsb' (4 * (7 - (4 * (j.val % 2) + c.val))) 4) := by
  have e1 : (4 * j.val + c.val) / 2 / 4 = j.val / 2 := by omega
  have e2 : (4 * j.val + c.val) / 2 % 4 = 2 * (j.val % 2) + c.val / 2 := by omega
  simp only [hexStrChar, digestByte, e1, e2]
  split
  · rw [lane_high]; congr 2; omega
  · rw [lane_low]; congr 2; omega

/-! ## Characters (44_serializer.md R192) -/

theorem hexChar_toNat (v : BitVec 4) :
    (hexChar v).toNat = if v.toNat < 10 then 0x30 + v.toNat else 0x61 + (v.toNat - 10) := by
  revert v; decide

/-- Different digits have different characters. -/
theorem hexChar_inj {v w : BitVec 4} (h : hexChar v = hexChar w) : v = w := by
  revert v w; decide

/-! ## The STATUS word (30_encoding.md R95) -/

/-- The STATUS word as a number. -/
theorem Status.word_toNat (f : Status) :
    f.word.toNat = f.errcode.toNat * 16 + f.err.toNat * 4 + f.done.toNat * 2 + f.busy.toNat := by
  obtain ⟨b, d, e, c⟩ := f
  cases b <;> cases d <;> cases e <;> revert c <;> decide

end Sys2Proof.Machine
end

