-- ==== Sys2Proof/Laws/Padder.lean ====
section
/-! SUPPORT. The padder: the bounds of the padded length, the value of PADBYTE in each of its ranges, and what the
check for unwritten message words answers. -/

namespace Sys2Proof.Machine

/-! ## Lengths (41_padder.md R120) -/

theorem padLen_eq (len : Nat) : padLen len = 64 * blocksOf len := Nat.mul_comm _ _

theorem padLen_bounds (len : Nat) : len + 9 ≤ padLen len ∧ padLen len ≤ len + 72 := by
  unfold padLen blocksOf; omega

/-- The zero fill of the reference padding brings the total to the padded length. -/
theorem zeroFill_eq (len : Nat) : len + 1 + Reference.zeroFill len + 8 = padLen len := by
  unfold Reference.zeroFill padLen blocksOf; omega

/-- BITLEN does not wrap below 2^61 (41_padder.md R122). -/
theorem bitLen_toNat {len : Nat} (h : len < 2 ^ 61) : (bitLen len).toNat = 8 * len := by
  rw [bitLen, BitVec.toNat_ofNat]; omega

/-! ## PADBYTE, range by range (41_padder.md R123) -/

theorem State.padByte_message (s : State) {i : Nat} (h : i < s.Lq.toNat) : s.padByte i = s.msgByte i := by
  simp [State.padByte, h]

theorem State.padByte_marker (s : State) : s.padByte s.Lq.toNat = 0x80#8 := by
  simp [State.padByte]

theorem State.padByte_zero (s : State) {i : Nat} (h : s.Lq.toNat < i) (h' : i < padLen s.Lq.toNat - 8) :
    s.padByte i = 0x00#8 := by
  simp [State.padByte, show ¬i < s.Lq.toNat by omega, show ¬i = s.Lq.toNat by omega, h']

theorem State.padByte_length (s : State) {i : Nat} (h : padLen s.Lq.toNat - 8 ≤ i) (h' : i < padLen s.Lq.toNat) :
    s.padByte i = (bitLen s.Lq.toNat).extractLsb' (8 * (padLen s.Lq.toNat - 1 - i)) 8 := by
  have hb := padLen_bounds s.Lq.toNat
  simp [State.padByte, show ¬i < s.Lq.toNat by omega, show ¬i = s.Lq.toNat by omega,
    show ¬i < padLen s.Lq.toNat - 8 by omega, h']

/-- A length byte as a number, for a length START accepts. -/
theorem State.padByte_length_toNat (s : State) {k : Nat} (hk : k < 8) (hL : s.Lq.toNat < 2 ^ 61) :
    (s.padByte (padLen s.Lq.toNat - 8 + k)).toNat = 8 * s.Lq.toNat / 256 ^ (7 - k) % 256 := by
  have hb := padLen_bounds s.Lq.toNat
  rw [s.padByte_length (by omega) (by omega), BitVec.extractLsb'_toNat, bitLen_toNat hL, Nat.shiftRight_eq_div_pow,
    show padLen s.Lq.toNat - 1 - (padLen s.Lq.toNat - 8 + k) = 7 - k by omega, Nat.pow_mul]

/-- Two states with the same latched length whose buffers agree below it have the same padded bytes. -/
theorem State.padByte_congr {s u : State} (hL : s.Lq = u.Lq) (h : ∀ i < s.Lq.toNat, s.msgByte i = u.msgByte i)
    (i : Nat) : s.padByte i = u.padByte i := by
  simp only [State.padByte, ← hL]
  by_cases hi : i < s.Lq.toNat
  · simp [hi, h i hi]
  · simp [hi]

/-! ## The written bits of a block (70_reset_and_hazards.md R319) -/

/-- No word is reported exactly when every byte of the block below Lq has been written. -/
theorem State.firstUnwritten_eq_none (s : State) (b : Nat) :
    s.firstUnwritten b = none ↔
      ∀ i, 64 * b ≤ i → i < 64 * b + 64 → i < s.Lq.toNat → s.mem.written i = true := by
  simp only [State.firstUnwritten, Option.map_eq_none_iff, List.find?_eq_none, List.mem_map, List.mem_range,
    forall_exists_index, and_imp]
  constructor
  · intro h i h1 h2 h3
    have := h i (i - 64 * b) (by omega) (by omega)
    simpa [h3] using this
  · rintro h i k hk rfl
    by_cases h3 : 64 * b + k < s.Lq.toNat
    · simp [h _ (by omega) (by omega) h3]
    · simp [h3]

/-- A reported word holds a byte of the block, below Lq and not written. -/
theorem State.firstUnwritten_eq_some {s : State} {b m : Nat} (h : s.firstUnwritten b = some m) :
    ∃ i, 64 * b ≤ i ∧ i < 64 * b + 64 ∧ i < s.Lq.toNat ∧ s.mem.written i = false ∧ i / 4 = m := by
  simp only [State.firstUnwritten, Option.map_eq_some_iff] at h
  obtain ⟨i, hi, rfl⟩ := h
  have hm := List.mem_of_find?_eq_some hi
  have hp := List.find?_some hi
  simp only [List.mem_map, List.mem_range] at hm
  obtain ⟨k, hk, rfl⟩ := hm
  simp only [Bool.and_eq_true, decide_eq_true_eq, Bool.not_eq_true'] at hp
  exact ⟨_, by omega, by omega, hp.1, hp.2, rfl⟩

end Sys2Proof.Machine
end

