-- ==== Sys2Proof/Laws/Exec.lean ====
section
/-! SUPPORT. What an instruction, a step and a run can do, each said once; later proofs cite these lemmas and unfold no
meaning. -/

namespace Sys2Proof.Machine

/-! ## START (46_host_interface.md R233) -/

theorem State.length_toNat (s : State) : s.length.toNat = s.lenHi.toNat * 2 ^ 32 + s.lenLo.toNat := by
  rw [State.length, BitVec.toNat_append, ← Nat.shiftLeft_add_eq_or_of_lt s.lenLo.isLt, Nat.shiftLeft_eq]

/-- All that START can do. -/
theorem execCtrlStart_cases (hi : BitVec 28) (s : State) :
    (s.status.busy = true ∧ execCtrlStart hi s = .next s) ∨
    (s.status.busy = false ∧ 2 ^ 61 ≤ s.length.toNat ∧
      execCtrlStart hi s = .next { s with status := ⟨false, false, true, 1#4⟩ }) ∨
    (s.status.busy = false ∧ s.length.toNat < 2 ^ 61 ∧ s.params.msgCap < s.length.toNat ∧
      execCtrlStart hi s = .next { s with status := ⟨false, false, true, 2#4⟩ }) ∨
    (s.status.busy = false ∧ s.length.toNat ≤ s.params.msgCap ∧
      execCtrlStart hi s = .next { s with
        Lq := s.length, NB := blocksOf s.length.toNat, H := IV, pc := ⟨1#3, 0, 0⟩,
        status := ⟨true, false, false, 0#4⟩ }) := by
  cases hb : s.status.busy with
  | true => exact .inl ⟨rfl, by simp [execCtrlStart, hb]⟩
  | false =>
    refine .inr ?_
    have e0 : execCtrlStart hi s =
        if 2 ^ 61 ≤ s.length.toNat then .next ((s.setStatus s.status.cleared).raise .lengthOverflow)
        else if s.params.msgCap < s.length.toNat then .next ((s.setStatus s.status.cleared).raise .lengthCapacity)
        else .next (s.setStatus s.status.cleared).start := by
      unfold execCtrlStart; rw [if_neg (by rw [hb]; decide)]
    by_cases h1 : 2 ^ 61 ≤ s.length.toNat
    · refine .inl ⟨rfl, h1, ?_⟩
      rw [e0, if_pos h1]
      simp [State.raise, State.setStatus, Status.failed, Status.cleared, ErrorCause.code, hb]
    · by_cases h2 : s.params.msgCap < s.length.toNat
      · refine .inr (.inl ⟨rfl, Nat.lt_of_not_le h1, h2, ?_⟩)
        rw [e0, if_neg h1, if_pos h2]
        simp [State.raise, State.setStatus, Status.failed, Status.cleared, ErrorCause.code, hb]
      · refine .inr (.inr ⟨rfl, Nat.le_of_not_lt h2, ?_⟩)
        rw [e0, if_neg h1, if_neg h2]
        rfl

/-! ## The engine's operations that choose (42_scheduler.md R145, R146, 43_compressor.md R167, R168) -/

/-- All that SCHED_LOAD can do. -/
theorem execEngSchedLoad_cases (s : State) :
    (∃ m, s.firstUnwritten s.pc.blk = some m ∧ execEngSchedLoad s = .fault (.unwrittenMessageWord m)) ∨
    (s.firstUnwritten s.pc.blk = none ∧
      execEngSchedLoad s = .next { s with W := s.loadedSchedule, pc := ⟨2#3, s.pc.blk, 16⟩ }) := by
  cases h : s.firstUnwritten s.pc.blk with
  | some m => exact .inl ⟨m, rfl, by simp [execEngSchedLoad, h]⟩
  | none => exact .inr ⟨rfl, by simp [execEngSchedLoad, h, State.setW, State.setPc]⟩

/-- All that SCHED_EXPAND can do. -/
theorem execEngSchedExpand_cases (s : State) :
    (∃ h : s.pc.t.val < 63, execEngSchedExpand s = .next { s with
      W := s.W.set s.pc.t.val s.expandedWord, pc := ⟨2#3, s.pc.blk, ⟨s.pc.t.val + 1, by omega⟩⟩ }) ∨
    (s.pc.t.val = 63 ∧ execEngSchedExpand s = .next { s with
      W := s.W.set s.pc.t.val s.expandedWord, pc := ⟨3#3, s.pc.blk, 0⟩ }) := by
  by_cases h : s.pc.t.val < 63
  · exact .inl ⟨h, by simp [execEngSchedExpand, h, State.setW, State.setPc]⟩
  · exact .inr ⟨by have := s.pc.t.isLt; omega, by simp [execEngSchedExpand, h, State.setW, State.setPc]⟩

/-- All that ROUND can do. -/
theorem execEngRound_cases (s : State) :
    (∃ h : s.pc.t.val < 63, execEngRound s = .next { s with
      work := s.work.round (K s.pc.t) s.W[s.pc.t.val], pc := ⟨4#3, s.pc.blk, ⟨s.pc.t.val + 1, by omega⟩⟩ }) ∨
    (s.pc.t.val = 63 ∧ execEngRound s = .next { s with
      work := s.work.round (K s.pc.t) s.W[s.pc.t.val], pc := ⟨5#3, s.pc.blk, 0⟩ }) := by
  by_cases h : s.pc.t.val < 63
  · exact .inl ⟨h, by simp [execEngRound, h, State.setWork, State.setPc]⟩
  · exact .inr ⟨by have := s.pc.t.isLt; omega, by simp [execEngRound, h, State.setWork, State.setPc]⟩

/-- All that FOLD can do. -/
theorem execEngFold_cases (s : State) :
    (s.pc.blk + 1 < s.NB ∧ execEngFold s = .next { s with
      H := folded s.H s.work, pc := ⟨1#3, s.pc.blk + 1, 0⟩ }) ∨
    (s.NB ≤ s.pc.blk + 1 ∧ execEngFold s = .next { s with
      H := folded s.H s.work, pc := ⟨0#3, s.pc.blk, s.pc.t⟩,
      status := { s.status with busy := false, done := true } }) := by
  by_cases h : s.pc.blk + 1 < s.NB
  · exact .inl ⟨h, by simp [execEngFold, h, State.setH, State.setPc]⟩
  · exact .inr ⟨by omega, by simp [execEngFold, h, State.setH, State.setPc, State.setStatus, Status.finished]⟩

/-! ## Any instruction -/

/-- All that a host transaction can do: it always answers a next state. -/
theorem exec_host_cases {i : Instr} (s : State) (h : i.isHost = true) : ∃ t, exec i s = .next t ∧
    (t = s ∨ (∃ w, t = s.reply w) ∨
    (s.status.busy = false ∧ ∃ w, i = .wrLenLo w ∧ t = s.setLenLo w) ∨
    (s.status.busy = false ∧ ∃ w, i = .wrLenHi w ∧ t = s.setLenHi w) ∨
    (s.status.busy = false ∧ ∃ m w, i = .wrMsg m w ∧ t = { s with mem := s.mem.setWord (4 * m.toNat) w }) ∨
    (s.status.busy = false ∧ ∃ hi, i = .ctrlStart hi ∧ execCtrlStart hi s = .next t)) := by
  cases i with
  | ctrlNop hi => exact ⟨s, rfl, .inl rfl⟩
  | ctrlRsvd c hi => exact ⟨s, rfl, .inl rfl⟩
  | wrStatus w => exact ⟨s, rfl, .inl rfl⟩
  | wrCapacity w => exact ⟨s, rfl, .inl rfl⟩
  | wrDigest k w => exact ⟨s, rfl, .inl rfl⟩
  | wrHex j w => exact ⟨s, rfl, .inl rfl⟩
  | wrRsvd word w => exact ⟨s, rfl, .inl rfl⟩
  | rdCtrl => exact ⟨_, rfl, .inr (.inl ⟨_, rfl⟩)⟩
  | rdStatus => exact ⟨_, rfl, .inr (.inl ⟨_, rfl⟩)⟩
  | rdLenLo => exact ⟨_, rfl, .inr (.inl ⟨_, rfl⟩)⟩
  | rdLenHi => exact ⟨_, rfl, .inr (.inl ⟨_, rfl⟩)⟩
  | rdCapacity => exact ⟨_, rfl, .inr (.inl ⟨_, rfl⟩)⟩
  | rdDigest k => exact ⟨_, rfl, .inr (.inl ⟨_, rfl⟩)⟩
  | rdHex j => exact ⟨_, rfl, .inr (.inl ⟨_, rfl⟩)⟩
  | rdMsg m => exact ⟨_, rfl, .inr (.inl ⟨_, rfl⟩)⟩
  | rdRsvd word => exact ⟨_, rfl, .inr (.inl ⟨_, rfl⟩)⟩
  | wrLenLo w =>
    cases hb : s.status.busy with
    | true => exact ⟨s, by simp [exec, execWrLenLo, hb], .inl rfl⟩
    | false => exact ⟨s.setLenLo w, by simp [exec, execWrLenLo, hb], .inr (.inr (.inl ⟨rfl, w, rfl, rfl⟩))⟩
  | wrLenHi w =>
    cases hb : s.status.busy with
    | true => exact ⟨s, by simp [exec, execWrLenHi, hb], .inl rfl⟩
    | false => exact ⟨s.setLenHi w, by simp [exec, execWrLenHi, hb], .inr (.inr (.inr (.inl ⟨rfl, w, rfl, rfl⟩)))⟩
  | wrMsg m w =>
    refine ⟨s.memWrite (4 * m.toNat) w, rfl, ?_⟩
    rcases s.memWrite_cases (4 * m.toNat) w with ⟨-, e⟩ | ⟨hb, e⟩
    · exact .inl e
    · exact .inr (.inr (.inr (.inr (.inl ⟨hb, m, w, rfl, e⟩))))
  | ctrlStart hi =>
    rcases execCtrlStart_cases hi s with ⟨-, e⟩ | ⟨hb, -, e⟩ | ⟨hb, -, -, e⟩ | ⟨hb, -, e⟩
    · exact ⟨s, e, .inl rfl⟩
    all_goals exact ⟨_, e, .inr (.inr (.inr (.inr (.inr ⟨hb, hi, rfl, e⟩))))⟩
  | engIdle => cases h
  | engSchedLoad => cases h
  | engSchedExpand => cases h
  | engRoundInit => cases h
  | engRound => cases h
  | engFold => cases h
  | engRsvd low => cases h

/-- Every engine operation but SCHED_LOAD answers a next state. -/
theorem exec_engine_next {i : Instr} (s : State) (h : i.isHost = false) (hl : i ≠ .engSchedLoad) :
    ∃ t, exec i s = .next t := by
  cases i with
  | engIdle => exact ⟨_, rfl⟩
  | engRsvd low => exact ⟨_, rfl⟩
  | engRoundInit => exact ⟨_, rfl⟩
  | engSchedExpand => rcases execEngSchedExpand_cases s with ⟨_, e⟩ | ⟨_, e⟩ <;> exact ⟨_, e⟩
  | engRound => rcases execEngRound_cases s with ⟨_, e⟩ | ⟨_, e⟩ <;> exact ⟨_, e⟩
  | engFold => rcases execEngFold_cases s with ⟨-, e⟩ | ⟨-, e⟩ <;> exact ⟨_, e⟩
  | engSchedLoad => exact absurd rfl hl
  | _ => cases h

/-- All that an engine operation can do when it answers a next state. -/
theorem exec_engine_cases {i : Instr} {s t : State} (h : i.isHost = false) (e : exec i s = .next t) :
    (t = s ∧ (i = .engIdle ∨ ∃ l, i = .engRsvd l)) ∨
    (i = .engSchedLoad ∧ s.firstUnwritten s.pc.blk = none ∧
      t = { s with W := s.loadedSchedule, pc := ⟨2#3, s.pc.blk, 16⟩ }) ∨
    (i = .engSchedExpand ∧ ∃ p', t = { s with W := s.W.set s.pc.t.val s.expandedWord, pc := p' } ∧
      ((s.pc.t.val < 63 ∧ p'.phase = 2#3 ∧ p'.blk = s.pc.blk ∧ p'.t.val = s.pc.t.val + 1) ∨
        (s.pc.t.val = 63 ∧ p' = ⟨3#3, s.pc.blk, 0⟩))) ∨
    (i = .engRoundInit ∧ t = { s with work := workOf s.H, pc := ⟨4#3, s.pc.blk, 0⟩ }) ∨
    (i = .engRound ∧ ∃ p', t = { s with work := s.work.round (K s.pc.t) s.W[s.pc.t.val], pc := p' } ∧
      ((s.pc.t.val < 63 ∧ p'.phase = 4#3 ∧ p'.blk = s.pc.blk ∧ p'.t.val = s.pc.t.val + 1) ∨
        (s.pc.t.val = 63 ∧ p' = ⟨5#3, s.pc.blk, 0⟩))) ∨
    (i = .engFold ∧ ((s.pc.blk + 1 < s.NB ∧ t = { s with H := folded s.H s.work, pc := ⟨1#3, s.pc.blk + 1, 0⟩ }) ∨
      (s.NB ≤ s.pc.blk + 1 ∧ t = { s with
      H := folded s.H s.work, pc := ⟨0#3, s.pc.blk, s.pc.t⟩,
      status := { s.status with busy := false, done := true } }))) := by
  cases i with
  | engIdle => cases e; exact .inl ⟨rfl, .inl rfl⟩
  | engRsvd low => cases e; exact .inl ⟨rfl, .inr ⟨_, rfl⟩⟩
  | engRoundInit => cases e; exact .inr (.inr (.inr (.inl ⟨rfl, rfl⟩)))
  | engSchedLoad =>
    rcases execEngSchedLoad_cases s with ⟨m, _, e'⟩ | ⟨h1, e'⟩ <;> rw [exec, e'] at e <;> cases e
    exact .inr (.inl ⟨rfl, h1, rfl⟩)
  | engSchedExpand =>
    rcases execEngSchedExpand_cases s with ⟨h1, e'⟩ | ⟨h1, e'⟩ <;> rw [exec, e'] at e <;> cases e
    · exact .inr (.inr (.inl ⟨rfl, _, rfl, .inl ⟨h1, rfl, rfl, rfl⟩⟩))
    · exact .inr (.inr (.inl ⟨rfl, _, rfl, .inr ⟨h1, rfl⟩⟩))
  | engRound =>
    rcases execEngRound_cases s with ⟨h1, e'⟩ | ⟨h1, e'⟩ <;> rw [exec, e'] at e <;> cases e
    · exact .inr (.inr (.inr (.inr (.inl ⟨rfl, _, rfl, .inl ⟨h1, rfl, rfl, rfl⟩⟩))))
    · exact .inr (.inr (.inr (.inr (.inl ⟨rfl, _, rfl, .inr ⟨h1, rfl⟩⟩))))
  | engFold =>
    rcases execEngFold_cases s with ⟨h1, e'⟩ | ⟨h1, e'⟩ <;> rw [exec, e'] at e <;> cases e
    · exact .inr (.inr (.inr (.inr (.inr ⟨rfl, .inl ⟨h1, rfl⟩⟩))))
    · exact .inr (.inr (.inr (.inr (.inr ⟨rfl, .inr ⟨h1, rfl⟩⟩))))
  | _ => cases h

/-! ## Decoding, by kind -/

/-- A command is a host write. -/
theorem decodeCommand_kind (w : Word) : (decodeCommand w).isHost = true ∧ (decodeCommand w).isRead = false := by
  unfold decodeCommand
  split
  · exact ⟨rfl, rfl⟩
  · split <;> exact ⟨rfl, rfl⟩

theorem readRow_kind (r : Region) : (readRow r).isHost = true ∧ (readRow r).isRead = true := by
  cases r <;> exact ⟨rfl, rfl⟩

theorem writeRow_kind (w : Word) (r : Region) : (writeRow w r).isHost = true ∧ (writeRow w r).isRead = false := by
  cases r with
  | ctrl => exact decodeCommand_kind w
  | _ => exact ⟨rfl, rfl⟩

/-- A transaction decodes to a host row. -/
theorem decodeTransaction_isHost (p : Params) (t : Transaction) : (decodeTransaction p t).isHost = true := by
  unfold decodeTransaction
  split
  · exact (readRow_kind _).1
  · exact (writeRow_kind _ _).1

/-- A read transaction decodes to a read row, a write transaction to none. -/
theorem decodeTransaction_isRead (p : Params) (t : Transaction) :
    (decodeTransaction p t).isRead = decide (t.dir = .rd) := by
  unfold decodeTransaction
  split <;> rename_i h <;> rw [h]
  · exact (readRow_kind _).2
  · exact (writeRow_kind _ _).2

/-- A phase decodes to an engine row. -/
theorem decodePhase_isHost (ph : BitVec 3) : (decodePhase ph).isHost = false := by revert ph; decide

/-- The operation of each phase (30_encoding.md R100, R103). -/
theorem decodePhase_cases (ph : BitVec 3) :
    (ph = 0#3 ∧ decodePhase ph = .engIdle) ∨ (ph = 1#3 ∧ decodePhase ph = .engSchedLoad) ∨
    (ph = 2#3 ∧ decodePhase ph = .engSchedExpand) ∨ (ph = 3#3 ∧ decodePhase ph = .engRoundInit) ∨
    (ph = 4#3 ∧ decodePhase ph = .engRound) ∨ (ph = 5#3 ∧ decodePhase ph = .engFold) ∨
    (6 ≤ ph.toNat ∧ ∃ l, decodePhase ph = .engRsvd l) := by revert ph; decide

/-- The word a decoded WR_MSG writes lies in the buffer (30_encoding.md R91). -/
theorem decodeTransaction_wrMsg_lt {p : Params} {tr : Transaction} {m : BitVec 29} {w : Word}
    (h : decodeTransaction p tr = .wrMsg m w) : 4 * m.toNat < p.msgCap := by
  unfold decodeTransaction at h
  split at h
  · cases hr : region p (tr.key.extractLsb' 0 32) <;> rw [hr] at h <;> cases h
  · cases hr : region p (tr.key.extractLsb' 0 32) <;> rw [hr] at h
    case ctrl =>
      simp only [writeRow, decodeCommand] at h
      repeat' split at h
      all_goals cases h
    case msg => cases h; exact (region_wf p _).2.1 _ hr
    all_goals cases h

/-! ## One step -/

/-- All that a step can do: a reset, the pending transaction, the engine's operation, or nothing while BUSY = 0. -/
theorem step_cases (s : State) :
    (∃ rest, s.events = .reset :: rest ∧ step s = .next { s with events := rest }.applyReset) ∨
    (∃ tr rest, s.events = .host tr :: rest ∧
      step s = exec (decodeTransaction s.params tr) { s with events := rest }) ∨
    (∃ rest, ((s.events = [] ∧ rest = []) ∨ s.events = .engine :: rest) ∧
      ((s.status.busy = true ∧ step s = exec (decodePhase s.pc.phase) { s with events := rest }) ∨
       (s.status.busy = false ∧ step s = .next { s with events := rest }))) := by
  have turn : ∀ rest, s.events.tail = rest → s.resetIsNext = false → s.nextCode = s.engineCode →
      ((s.status.busy = true ∧ step s = exec (decodePhase s.pc.phase) { s with events := rest }) ∨
       (s.status.busy = false ∧ step s = .next { s with events := rest })) := by
    rintro rest rfl h1 h2
    cases hb : s.status.busy with
    | true => exact .inl ⟨rfl, by simp [step, h1, h2, State.engineCode, hb, decode, State.popEvent]⟩
    | false =>
      exact .inr ⟨rfl, by simp [step, h1, h2, State.engineCode, hb, decode, State.popEvent, decodePhase, exec,
        execEngIdle]⟩
  cases he : s.events with
  | nil =>
    exact .inr (.inr ⟨[], .inl ⟨rfl, rfl⟩,
      turn [] (by simp [he]) (by simp [State.resetIsNext, he]) (by simp [State.nextCode, he])⟩)
  | cons e rest =>
    cases e with
    | host tr =>
      exact .inr (.inl ⟨tr, rest, rfl, by
        simp [step, State.resetIsNext, State.nextCode, he, State.popEvent, decode]⟩)
    | engine =>
      exact .inr (.inr ⟨rest, .inr rfl,
        turn rest (by simp [he]) (by simp [State.resetIsNext, he]) (by simp [State.nextCode, he])⟩)
    | reset =>
      exact .inl ⟨rest, rfl, by simp [step, State.resetIsNext, he, State.popEvent]⟩

/-! ## Runs -/

theorem run_zero (s : State) : Host.Core.run core 0 s = .next s := rfl

theorem coreRun_succ (M : Host.Core) {s t : M.State} (h : M.step s = .next t) (n : Nat) :
    M.run (n + 1) s = M.run n t := by
  rw [Host.Core.run, h]

theorem coreRun_succ_fault (M : Host.Core) {s : M.State} {f : M.Fault} (h : M.step s = .fault f) (n : Nat) :
    M.run (n + 1) s = .fault f := by
  rw [Host.Core.run, h]

theorem coreRun_add (M : Host.Core) {s t : M.State} {n : Nat} (h : M.run n s = .next t) (m : Nat) :
    M.run (n + m) s = M.run m t := by
  induction n generalizing s with
  | zero => cases h; rw [Nat.zero_add]
  | succ n ih =>
    rw [Nat.succ_add]
    rw [Host.Core.run] at h ⊢
    split at h
    · exact ih h
    · cases h
    · cases h

/-- A run whose first step answers `t` goes on from `t`. -/
theorem run_succ {s t : State} (h : step s = .next t) (n : Nat) :
    Host.Core.run core (n + 1) s = Host.Core.run core n t := coreRun_succ core h n

/-- A run stops at a fault. -/
theorem run_succ_fault {s : State} {f : Fault} (h : step s = .fault f) (n : Nat) :
    Host.Core.run core (n + 1) s = .fault f := coreRun_succ_fault core h n

/-- A run of n + m steps is a run of n steps and then one of m. -/
theorem run_add {s t : State} {n : Nat} (h : Host.Core.run core n s = .next t) (m : Nat) :
    Host.Core.run core (n + m) s = Host.Core.run core m t := coreRun_add core h m

end Sys2Proof.Machine
end

