-- ==== Sys2Proof/Laws/Block.lean ====
section
/-! SUPPORT. The two loops of a block as runs: the 48 SCHED_EXPAND steps extend the schedule, the 64 ROUND steps fold
the rounds, each as the reference says; and the reference's own list laws. -/

namespace Sys2Proof.Machine

/-! ## Busy runs -/

/-- From `s`, `n` steps lead to `t`, and BUSY = 1 before each of them. -/
def BusyRun (n : Nat) (s t : State) : Prop :=
  (∀ m < n, ∃ u, Host.Core.run core m s = .next u ∧ u.status.busy = true) ∧ Host.Core.run core n s = .next t

theorem BusyRun.zero (s : State) : BusyRun 0 s s := ⟨fun _ h => absurd h (Nat.not_lt_zero _), rfl⟩

theorem BusyRun.step {s t u : State} {n : Nat} (hb : s.status.busy = true) (h : Machine.step s = .next t)
    (r : BusyRun n t u) : BusyRun (n + 1) s u := by
  refine ⟨fun m hm => ?_, by rw [run_succ h]; exact r.2⟩
  cases m with
  | zero => exact ⟨s, rfl, hb⟩
  | succ m => rw [run_succ h]; exact r.1 m (by omega)

theorem BusyRun.trans {s t u : State} {n m : Nat} (r : BusyRun n s t) (q : BusyRun m t u) : BusyRun (n + m) s u := by
  refine ⟨fun k hk => ?_, by rw [run_add r.2]; exact q.2⟩
  by_cases h : k < n
  · exact r.1 k h
  · obtain ⟨v, hv, hb⟩ := q.1 (k - n) (by omega)
    refine ⟨v, ?_, hb⟩
    rw [show k = n + (k - n) by omega, run_add r.2]; exact hv

/-- One engine step with no event pending. -/
theorem step_engine {s : State} (he : s.events = []) (hb : s.status.busy = true) :
    Machine.step s = exec (decodePhase s.pc.phase) s := by
  rcases step_cases s with ⟨_, h, _⟩ | ⟨_, _, h, _⟩ | ⟨r, ⟨_, rfl⟩ | h, ⟨_, e⟩ | ⟨h', _⟩⟩
  · rw [he] at h; cases h
  · rw [he] at h; cases h
  · rw [e, ← he]
  · rw [hb] at h'; cases h'
  · rw [he] at h; cases h
  · rw [he] at h; cases h

/-! ## The reference's lists -/

theorem Reference.extend_length (w : List Word) : (Reference.extend w).length = w.length + 1 := by
  simp [Reference.extend]

theorem Reference.extendN_length (n : Nat) (w : List Word) : (Reference.extendN n w).length = w.length + n := by
  induction n generalizing w with
  | zero => rfl
  | succ n ih => rw [Reference.extendN, ih, Reference.extend_length]; omega

/-- A round of the machine is a round of the reference. -/
theorem Work.round_eq (v : Work) (k w : Word) : v.round k w = Reference.round v k w := rfl

theorem K_eq_getD (t : Fin 64) : K t = roundConstants.getD t.val 0#32 := by
  rw [List.getD_eq_getElem?_getD, List.getElem?_eq_getElem (by rw [roundConstants_length]; exact t.isLt)]; rfl

/-- The round of a state is the reference's, with K[t] and W[t] taken from the lists. -/
theorem State.round_eq (s : State) : s.work.round (K s.pc.t) s.W[s.pc.t.val] =
    Reference.round s.work (roundConstants.getD s.pc.t.val 0#32) (s.W.toList.getD s.pc.t.val 0#32) := by
  rw [Work.round_eq, K_eq_getD, List.getD_eq_getElem?_getD (l := s.W.toList), List.getElem?_eq_getElem (by simp)]
  simp

/-- Setting word t extends a schedule known up to t by the next word of the reference (42_scheduler.md R146). -/
theorem State.take_set_expandedWord {s : State} (h16 : 16 ≤ s.pc.t.val) :
    (s.W.set s.pc.t.val s.expandedWord).toList.take (s.pc.t.val + 1) =
      Reference.extend (s.W.toList.take s.pc.t.val) := by
  have ht := s.pc.t.isLt
  have hlen : (s.W.toList.take s.pc.t.val).length = s.pc.t.val := by
    rw [List.length_take, Vector.length_toList]; omega
  have back : ∀ d, 0 < d → d ≤ 16 →
      s.scheduleBack d = (s.W.toList.take s.pc.t.val).getD (s.pc.t.val - d) 0#32 := by
    intro d h0 hd
    rw [State.scheduleBack, if_pos (by omega), List.getD_eq_getElem?_getD,
      List.getElem?_eq_getElem (by rw [hlen]; omega)]
    simp
  rw [Reference.extend, hlen, ← back 2 (by decide) (by decide), ← back 7 (by decide) (by decide),
    ← back 15 (by decide) (by decide), ← back 16 (by decide) (by decide)]
  apply List.ext_getElem
  · simp only [List.length_append, List.length_take, Vector.length_toList, List.length_singleton]; omega
  intro i h1 h2
  simp only [List.length_take, Vector.length_toList] at h1
  by_cases hi : i < s.pc.t.val
  · rw [List.getElem_append_left (by simp; omega)]
    simp [show s.pc.t.val ≠ i by omega]
  · have : i = s.pc.t.val := by omega
    subst this
    rw [List.getElem_append_right (by simp)]
    simp [State.expandedWord]

/-! ## The loops -/

/-- The SCHED_EXPAND steps from t to the end of the schedule. -/
theorem expand_run (k : Nat) (s : State) (hb : s.status.busy = true) (he : s.events = []) (hp : s.pc.phase = 2#3)
    (h16 : 16 ≤ s.pc.t.val) (hk : s.pc.t.val + (k + 1) = 64) :
    ∃ W' : Vector Word 64, BusyRun (k + 1) s { s with W := W', pc := ⟨3#3, s.pc.blk, 0⟩ } ∧
      W'.toList = Reference.extendN (k + 1) (s.W.toList.take s.pc.t.val) := by
  induction k generalizing s with
  | zero =>
    rcases execEngSchedExpand_cases s with ⟨h, _⟩ | ⟨h, e⟩
    · omega
    · refine ⟨_, BusyRun.step hb (t := { s with W := s.W.set s.pc.t.val s.expandedWord, pc := ⟨3#3, s.pc.blk, 0⟩ })
        (by rw [step_engine he hb, hp]; exact e) (BusyRun.zero _), ?_⟩
      rw [Reference.extendN, Reference.extendN, ← State.take_set_expandedWord h16, List.take_of_length_le]
      simp; omega
  | succ k ih =>
    rcases execEngSchedExpand_cases s with ⟨h, e⟩ | ⟨h, _⟩
    · obtain ⟨W', r, hW⟩ := ih { s with
        W := s.W.set s.pc.t.val s.expandedWord, pc := ⟨2#3, s.pc.blk, ⟨s.pc.t.val + 1, by omega⟩⟩ }
        hb he rfl (by show 16 ≤ s.pc.t.val + 1; omega) (by show s.pc.t.val + 1 + (k + 1) = 64; omega)
      refine ⟨W', BusyRun.step hb (by rw [step_engine he hb, hp]; exact e) r, ?_⟩
      rw [hW]
      show _ = Reference.extendN (k + 1) (Reference.extend _)
      rw [← State.take_set_expandedWord h16]
    · omega

/-- The ROUND steps from t to the end. -/
theorem rounds_run (k : Nat) (s : State) (hb : s.status.busy = true) (he : s.events = []) (hp : s.pc.phase = 4#3)
    (hk : s.pc.t.val + (k + 1) = 64) :
    BusyRun (k + 1) s { s with
      work := (List.range' s.pc.t.val (k + 1)).foldl
        (fun v t => Reference.round v (roundConstants.getD t 0#32) (s.W.toList.getD t 0#32)) s.work
      pc := ⟨5#3, s.pc.blk, 0⟩ } := by
  induction k generalizing s with
  | zero =>
    rcases execEngRound_cases s with ⟨h, _⟩ | ⟨h, e⟩
    · omega
    · rw [State.round_eq] at e
      exact BusyRun.step hb (by rw [step_engine he hb, hp]; exact e) (BusyRun.zero _)
  | succ k ih =>
    rcases execEngRound_cases s with ⟨h, e⟩ | ⟨h, _⟩
    · rw [State.round_eq] at e
      refine BusyRun.step hb (by rw [step_engine he hb, hp]; exact e) ?_
      exact ih _ hb he rfl (by show s.pc.t.val + 1 + (k + 1) = 64; omega)
    · omega

end Sys2Proof.Machine
end

