-- ==== Sys2Proof/Laws/PerInstr.lean ====
section
/-! SUPPORT. Per-instruction laws. EncodesItsRow: the encoding of a well-formed instruction meets the match, the mask
and the condition of its own row of spec/opcode_table.json (30_encoding.md R91, R107). -/

namespace Sys2Proof.Laws.EncodesItsRow

/-- Some row of the table has the instruction's mnemonic and is met by its encoding. -/
def Statement (i : Instr) : Prop :=
  ∀ p, i.wf p = true → ∃ r ∈ rowsOf (encode i), r.mnemonic = i.mnemonic ∧ r.hits p (encode i) = true

/-- The row numbered `n` witnesses a statement. -/
theorem of_row {i : Instr} (n : Nat) (r : OpcodeRow) (hr : (rowsOf (encode i))[n]? = some r)
    (hm : r.mnemonic = i.mnemonic) (hh : ∀ p, i.wf p = true → r.hits p (encode i) = true) : Statement i :=
  fun p hp => ⟨r, List.mem_of_getElem? hr, hm, hh p hp⟩

/-- AND of a key with a mask of high bits only, bit by bit. -/
theorem high_bits {key mask val : BitVec 33} (n : Nat) (hlow : ∀ i < n, mask.getLsbD i = false)
    (hval : ∀ i < n, val.getLsbD i = false)
    (hhigh : ∀ i, n ≤ i → i < 33 → (key.getLsbD i && mask.getLsbD i) = val.getLsbD i) : key &&& mask = val := by
  apply BitVec.eq_of_getLsbD_eq
  intro i hi
  by_cases h : i < n
  · simp [hlow i h, hval i h]
  · simpa using hhigh i (by omega) hi

/-- KEY[32] is the direction. -/
theorem key_bit32 (t : Transaction) : t.key.getLsbD 32 = t.dir.bit.getLsbD 0 := by
  rw [Transaction.key, BitVec.getLsbD_append]; rfl

/-- KEY[31] is off[31]. -/
theorem key_bit31 (t : Transaction) : t.key.getLsbD 31 = t.off.getLsbD 31 := by
  rw [Transaction.key, BitVec.getLsbD_append, if_pos (by decide), BitVec.getLsbD_append, if_neg (by decide),
    BitVec.getLsbD_extractLsb']
  simp

theorem msgOffset_bit31 (m : BitVec 29) : (msgOffset m).getLsbD 31 = true := by
  rw [msgOffset, BitVec.getLsbD_append, if_neg (by decide), BitVec.getLsbD_append, if_neg (by decide)]; rfl

/-- KEY[30:2] of a message offset is the word's number. -/
theorem key_msgOffset (d : Dir) (m : BitVec 29) (w : Word) :
    (Transaction.key ⟨d, msgOffset m, w⟩).extractLsb' 2 29 = m := by
  apply BitVec.eq_of_getLsbD_eq
  intro i hi
  rw [BitVec.getLsbD_extractLsb', Transaction.key, BitVec.getLsbD_append, if_pos (by omega), BitVec.getLsbD_append,
    if_neg (by omega), BitVec.getLsbD_extractLsb', msgOffset, BitVec.getLsbD_append, if_neg (by omega),
    BitVec.getLsbD_append, if_pos (by omega)]
  simp [hi, show i < 30 by omega]

/-- A row without a condition is met by a transaction when its match and mask are; wdata plays no part. -/
theorem hits_of_key (p : Params) (r : OpcodeRow) (d : Dir) (off : BitVec 32) (w : Word) (hc : r.condition = .none)
    (hk : Transaction.key ⟨d, off, 0#32⟩ &&& r.maskBits = r.matchBits) :
    r.hits p (.transaction ⟨d, off, w⟩) = true := by
  have hk' : Transaction.key ⟨d, off, w⟩ &&& r.maskBits = r.matchBits := hk
  simp [OpcodeRow.hits, RowCondition.holds, Code.key, hc, hk']

theorem window_hits (d : Dir) (m : BitVec 29) (w : Word) (val : BitVec 33) (hlow : ∀ i < 31, val.getLsbD i = false)
    (h31 : val.getLsbD 31 = true) (h32 : val.getLsbD 32 = d.bit.getLsbD 0) :
    Transaction.key ⟨d, msgOffset m, w⟩ &&& 0x180000000#33 = val := by
  refine high_bits 31 (by decide) hlow fun i hi hi' => ?_
  have : i = 31 ∨ i = 32 := by omega
  rcases this with rfl | rfl
  · rw [key_bit31, msgOffset_bit31, h31]; rfl
  · rw [key_bit32, h32]; simp

theorem reserved_hits (d : Dir) (off : BitVec 32) (w : Word) (val : BitVec 33)
    (hlow : ∀ i < 32, val.getLsbD i = false) (h32 : val.getLsbD 32 = d.bit.getLsbD 0) :
    Transaction.key ⟨d, off, w⟩ &&& 0x100000000#33 = val := by
  refine high_bits 32 (by decide) hlow fun i hi hi' => ?_
  obtain rfl : i = 32 := by omega
  rw [key_bit32, h32]; simp

/-- A command word's low four bits. -/
theorem command_low (hi : BitVec 28) (cmd : BitVec 4) : (hi ++ cmd : BitVec 32) &&& 0xF#32 = cmd.setWidth 32 := by
  apply BitVec.eq_of_getLsbD_eq
  intro i h
  rw [BitVec.getLsbD_and, BitVec.getLsbD_append, BitVec.getLsbD_setWidth]
  by_cases h4 : i < 4
  · have : (0xF#32).getLsbD i = true := by interval_cases i <;> decide
    simp only [h4, this, show i < 32 by omega, if_true, Bool.and_true, decide_true, Bool.true_and]
  · have : (0xF#32).getLsbD i = false := by
      have : i < 32 := h
      interval_cases i <;> first | omega | decide
    have hc : cmd.getLsbD i = false := BitVec.getLsbD_of_ge _ _ (by omega)
    simp [h4, this, hc]

/-- A command row is met when the command's condition is. -/
theorem command_hits (p : Params) (r : OpcodeRow) (w : Word) (hm : r.maskBits = 0x1FFFFFFFC#33)
    (hv : r.matchBits = 0x100000000#33) (hc : r.condition.holds p (.transaction ⟨.wr, 0x000#32, w⟩) = true) :
    r.hits p (.transaction ⟨.wr, 0x000#32, w⟩) = true := by
  have hk : Transaction.key ⟨.wr, 0x000#32, w⟩ &&& 0x1FFFFFFFC#33 = 0x100000000#33 :=
    show Transaction.key ⟨.wr, 0x000#32, 0#32⟩ &&& 0x1FFFFFFFC#33 = 0x100000000#33 by decide
  simp [OpcodeRow.hits, Code.key, hm, hv, hk, hc]

theorem digest_key :
    (∀ k : Fin 8, Transaction.key ⟨.rd, digestOffset k, 0#32⟩ &&& 0x1FFFFFFE0#33 = 0x000000040#33) ∧
    (∀ k : Fin 8, Transaction.key ⟨.wr, digestOffset k, 0#32⟩ &&& 0x1FFFFFFE0#33 = 0x100000040#33) := by decide

theorem hex_key :
    (∀ j : Fin 16, Transaction.key ⟨.rd, hexOffset j, 0#32⟩ &&& 0x1FFFFFFC0#33 = 0x000000080#33) ∧
    (∀ j : Fin 16, Transaction.key ⟨.wr, hexOffset j, 0#32⟩ &&& 0x1FFFFFFC0#33 = 0x100000080#33) := by decide

theorem ctrlNop (hi : BitVec 28) : Statement (.ctrlNop hi) :=
  of_row 0 _ rfl rfl fun p _ => command_hits p _ _ rfl rfl (by
    simp only [RowCondition.holds, command_low]; decide)
theorem ctrlStart (hi : BitVec 28) : Statement (.ctrlStart hi) :=
  of_row 1 _ rfl rfl fun p _ => command_hits p _ _ rfl rfl (by
    simp only [RowCondition.holds, command_low]; decide)
theorem ctrlRsvd (cmd : BitVec 4) (hi : BitVec 28) : Statement (.ctrlRsvd cmd hi) :=
  of_row 2 _ rfl rfl fun p hp => command_hits p _ _ rfl rfl (by
    simp only [Instr.wf, decide_eq_true_eq] at hp
    simp only [RowCondition.holds, command_low, decide_eq_true_eq]
    clear p
    revert cmd
    decide)
theorem rdCtrl : Statement .rdCtrl := of_row 3 _ rfl rfl fun p _ => hits_of_key p _ _ _ _ rfl (by decide)
theorem rdStatus : Statement .rdStatus := of_row 4 _ rfl rfl fun p _ => hits_of_key p _ _ _ _ rfl (by decide)
theorem wrStatus (w : Word) : Statement (.wrStatus w) :=
  of_row 5 _ rfl rfl fun p _ => hits_of_key p _ _ _ _ rfl (by decide)
theorem rdLenLo : Statement .rdLenLo := of_row 6 _ rfl rfl fun p _ => hits_of_key p _ _ _ _ rfl (by decide)
theorem wrLenLo (w : Word) : Statement (.wrLenLo w) :=
  of_row 7 _ rfl rfl fun p _ => hits_of_key p _ _ _ _ rfl (by decide)
theorem rdLenHi : Statement .rdLenHi := of_row 8 _ rfl rfl fun p _ => hits_of_key p _ _ _ _ rfl (by decide)
theorem wrLenHi (w : Word) : Statement (.wrLenHi w) :=
  of_row 9 _ rfl rfl fun p _ => hits_of_key p _ _ _ _ rfl (by decide)
theorem rdCapacity : Statement .rdCapacity := of_row 10 _ rfl rfl fun p _ => hits_of_key p _ _ _ _ rfl (by decide)
theorem wrCapacity (w : Word) : Statement (.wrCapacity w) :=
  of_row 11 _ rfl rfl fun p _ => hits_of_key p _ _ _ _ rfl (by decide)
theorem rdDigest (k : Fin 8) : Statement (.rdDigest k) :=
  of_row 12 _ rfl rfl fun p _ => hits_of_key p _ _ _ _ rfl (digest_key.1 k)
theorem wrDigest (k : Fin 8) (w : Word) : Statement (.wrDigest k w) :=
  of_row 13 _ rfl rfl fun p _ => hits_of_key p _ _ _ _ rfl (digest_key.2 k)
theorem rdHex (j : Fin 16) : Statement (.rdHex j) :=
  of_row 14 _ rfl rfl fun p _ => hits_of_key p _ _ _ _ rfl (hex_key.1 j)
theorem wrHex (j : Fin 16) (w : Word) : Statement (.wrHex j w) :=
  of_row 15 _ rfl rfl fun p _ => hits_of_key p _ _ _ _ rfl (hex_key.2 j)
theorem rdMsg (m : BitVec 29) : Statement (.rdMsg m) :=
  of_row 16 _ rfl rfl fun p hp => by
    have hk := window_hits .rd m 0#32 0x080000000#33 (by decide) (by decide) (by decide)
    simp only [Instr.wf, decide_eq_true_eq] at hp
    simp [OpcodeRow.hits, encode, Code.read, RowCondition.holds, Code.key, key_msgOffset, hk, hp]
theorem wrMsg (m : BitVec 29) (w : Word) : Statement (.wrMsg m w) :=
  of_row 17 _ rfl rfl fun p hp => by
    have hk := window_hits .wr m w 0x180000000#33 (by decide) (by decide) (by decide)
    simp only [Instr.wf, decide_eq_true_eq] at hp
    simp [OpcodeRow.hits, encode, Code.write, RowCondition.holds, Code.key, key_msgOffset, hk, hp]
theorem rdRsvd (word : BitVec 30) : Statement (.rdRsvd word) :=
  of_row 18 _ rfl rfl fun p _ => hits_of_key p _ _ _ _ rfl
    (reserved_hits .rd _ 0#32 0x000000000#33 (by decide) (by decide))
theorem wrRsvd (word : BitVec 30) (w : Word) : Statement (.wrRsvd word w) :=
  of_row 19 _ rfl rfl fun p _ => hits_of_key p _ _ _ _ rfl
    (reserved_hits .wr _ 0#32 0x100000000#33 (by decide) (by decide))
theorem engIdle : Statement .engIdle := of_row 0 _ rfl rfl fun _ _ => rfl
theorem engSchedLoad : Statement .engSchedLoad := of_row 1 _ rfl rfl fun _ _ => rfl
theorem engSchedExpand : Statement .engSchedExpand := of_row 2 _ rfl rfl fun _ _ => rfl
theorem engRoundInit : Statement .engRoundInit := of_row 3 _ rfl rfl fun _ _ => rfl
theorem engRound : Statement .engRound := of_row 4 _ rfl rfl fun _ _ => rfl
theorem engFold : Statement .engFold := of_row 5 _ rfl rfl fun _ _ => rfl
theorem engRsvd (low : BitVec 1) : Statement (.engRsvd low) :=
  of_row 6 _ rfl rfl fun _ _ => by
    have : ∀ l : BitVec 1, (0b11#2 ++ l : BitVec 3).setWidth 33 &&& 0x6#33 = 0x6#33 := by decide
    simp [OpcodeRow.hits, encode, Code.key, RowCondition.holds, this]

end Sys2Proof.Laws.EncodesItsRow
end

