-- ==== Sys2Proof/Tests/Slice0.lean ====
section
/-! SUPPORT. Tests. Expected values are the spec's own: the encoding tables of 30_encoding.md, the examples of the rules
and the vectors of 95_test_vectors.md, named in each comment. The witnesses show that the hypotheses of each statement
can be met. -/

namespace Sys2Proof.Tests

open Sys2Proof Sys2Proof.Machine

/-! ## Helpers -/

/-- A value read off the next state. -/
def nextOf {α : Type} (r : Result) (f : State → α) : Option α :=
  match r with
  | .next t => some (f t)
  | .fault _ | .refused _ => none

/-- The fault of an outcome. -/
def faultOf (r : Result) : Option Fault :=
  match r with
  | .fault f => some f
  | .next _ | .refused _ => none

/-- The buffer after `WR 0x80000000, 0x61626300` ("abc"). -/
def abcMem : Memory := Memory.setWord [] (4 * 0) 0x61626300#32

/-- After reset, with "abc" in the buffer and LEN = 3. -/
def abcIdle : State := { State.reset with mem := abcMem, lenLo := 3#32 }

/-- The computation of "abc", at pc = (phase, 0, t). -/
def abcBusy (phase : BitVec 3) (t : Fin 64) : State :=
  { abcIdle with Lq := 3#64, NB := 1, H := IV, pc := ⟨phase, 0, t⟩, status := ⟨true, false, false, 0#4⟩ }

/-- After the computation of "abc": H is its digest (vector S2). -/
def abcDone : State :=
  { abcIdle with
    Lq := 3#64, NB := 1, status := ⟨false, true, false, 0#4⟩,
    H := #v[0xBA7816BF#32, 0x8F01CFEA#32, 0x414140DE#32, 0x5DAE2223#32,
            0xB00361A3#32, 0x96177A9C#32, 0xB410FF61#32, 0xF20015AD#32] }

/-- A state whose LEN is {hi, lo}. -/
def withLength (hi lo : Word) : State := { State.reset with lenHi := hi, lenLo := lo }

/-- A state that recorded LENGTH_OVERFLOW. -/
def failed : State := { withLength 0x20000000#32 0#32 with status := ⟨false, false, true, 1#4⟩ }

/-! ## Well-formedness refuses an ill-formed term of each kind -/

theorem test_wf_reserved_command_low : Instr.wf Config.defaultParams (.ctrlRsvd 1#4 0#28) = false := by decide
theorem test_wf_reserved_command_high : Instr.wf Config.defaultParams (.ctrlRsvd 0xF#4 0#28) = true := by decide
theorem test_wf_read_past_buffer : Instr.wf Config.defaultParams (.rdMsg 64#29) = false := by decide
theorem test_wf_write_past_buffer : Instr.wf Config.defaultParams (.wrMsg 64#29 0#32) = false := by decide
theorem test_wf_write_last_word : Instr.wf Config.defaultParams (.wrMsg 63#29 0#32) = true := by decide
theorem test_wf_read_of_mapped_offset : Instr.wf Config.defaultParams (.rdRsvd 4#30) = false := by decide
theorem test_wf_write_of_window_offset : Instr.wf Config.defaultParams (.wrRsvd 0x20000000#30 0#32) = false := by decide
theorem test_wf_reserved_offset : Instr.wf Config.defaultParams (.wrRsvd 0x20000040#30 0#32) = true := by decide

/-! ## Decoding: each row's word written out from 30_encoding.md R90 to R94 and R100; KEY in bits 32..0, wdata in bits
71..40 (log 2) -/

theorem test_decode_ctrlNop : decodeTableWord 72 (0x100000000 + 0xFFFFFFF0 * 2 ^ 40) = some (.ctrlNop 0xFFFFFFF#28) := by
  decide
theorem test_decode_ctrlStart : decodeTableWord 72 (0x100000000 + 0x00000001 * 2 ^ 40) = some (.ctrlStart 0#28) := by
  decide
theorem test_decode_ctrlRsvd : decodeTableWord 72 (0x100000000 + 0xFFFFFFF2 * 2 ^ 40) =
    some (.ctrlRsvd 2#4 0xFFFFFFF#28) := by decide
theorem test_decode_rdCtrl : decodeTableWord 40 0x000000000 = some .rdCtrl := by decide
theorem test_decode_rdStatus : decodeTableWord 40 0x000000004 = some .rdStatus := by decide
theorem test_decode_wrStatus : decodeTableWord 72 (0x100000004 + 0xFFFFFFFF * 2 ^ 40) =
    some (.wrStatus 0xFFFFFFFF#32) := by decide
theorem test_decode_rdLenLo : decodeTableWord 40 0x00000000B = some .rdLenLo := by decide
theorem test_decode_wrLenLo : decodeTableWord 72 (0x100000008 + 3 * 2 ^ 40) = some (.wrLenLo 3#32) := by decide
theorem test_decode_rdLenHi : decodeTableWord 40 0x00000000C = some .rdLenHi := by decide
theorem test_decode_wrLenHi : decodeTableWord 72 (0x10000000C + 0x20000000 * 2 ^ 40) =
    some (.wrLenHi 0x20000000#32) := by decide
theorem test_decode_rdCapacity : decodeTableWord 40 0x000000010 = some .rdCapacity := by decide
theorem test_decode_wrCapacity : decodeTableWord 72 0x100000010 = some (.wrCapacity 0#32) := by decide
theorem test_decode_rdDigest : decodeTableWord 40 0x00000005C = some (.rdDigest 7) := by decide
theorem test_decode_wrDigest : decodeTableWord 72 0x100000040 = some (.wrDigest 0 0#32) := by decide
theorem test_decode_rdHex : decodeTableWord 40 0x0000000BC = some (.rdHex 15) := by decide
theorem test_decode_wrHex : decodeTableWord 72 0x100000084 = some (.wrHex 1 0#32) := by decide
theorem test_decode_rdMsg : decodeTableWord 40 0x0800000FC = some (.rdMsg 63#29) := by decide
theorem test_decode_wrMsg : decodeTableWord 72 (0x180000000 + 0x61626300 * 2 ^ 40) =
    some (.wrMsg 0#29 0x61626300#32) := by decide
theorem test_decode_rdRsvd : decodeTableWord 40 0x000000014 = some (.rdRsvd 5#30) := by decide
theorem test_decode_wrRsvd_past_buffer : decodeTableWord 72 (0x180000100 + 0x12345678 * 2 ^ 40) =
    some (.wrRsvd 0x20000040#30 0x12345678#32) := by decide
theorem test_decode_engIdle : decodeTableWord 8 0 = some .engIdle := by decide
theorem test_decode_engSchedLoad : decodeTableWord 8 1 = some .engSchedLoad := by decide
theorem test_decode_engSchedExpand : decodeTableWord 8 2 = some .engSchedExpand := by decide
theorem test_decode_engRoundInit : decodeTableWord 8 3 = some .engRoundInit := by decide
theorem test_decode_engRound : decodeTableWord 8 4 = some .engRound := by decide
theorem test_decode_engFold : decodeTableWord 8 5 = some .engFold := by decide
theorem test_decode_engRsvd : decodeTableWord 8 7 = some (.engRsvd 1#1) := by decide
theorem test_decode_refuses_no_phase : codeOfBits 8 8 = .error .notAPhase := by decide
theorem test_decode_refuses_no_transaction : codeOfBits 40 0x200000000 = .error .notATransaction := by decide

/-- 95_test_vectors.md P2, lines 1 to 6: the script of "abc" is its list of (dir, off, wdata). -/
theorem test_script_abc : scriptTransactions (scriptHash [0x61#8, 0x62#8, 0x63#8] 2) =
    [⟨.wr, 0x80000000#32, 0x61626300#32⟩, ⟨.wr, 0x00000008#32, 3#32⟩, ⟨.wr, 0x0000000C#32, 0#32⟩,
     ⟨.wr, 0x00000000#32, 1#32⟩, ⟨.rd, 0x00000004#32, 0#32⟩] := by decide

/-- BNZ goes back to its label while the masked word is not 0, and on when it is (30_encoding.md R105). -/
theorem test_script_poll :
    (HostProgram.advance ⟨scriptPoll 2, 1, true⟩ 0x00000001#32).line = 0 ∧
    (HostProgram.advance ⟨scriptPoll 2, 1, true⟩ 0x00000002#32).line = 2 := by decide

/-! ## Word functions (95_test_vectors.md V10) -/

theorem test_rotr : rotr 0x12345678#32 7 = 0xF02468AC#32 ∧ rotr 0x12345678#32 25 = 0x1A2B3C09#32 := by decide
theorem test_sigma0 : sigma0 0x12345678#32 = 0xE7FCE6EE#32 ∧ sigma0 0x80000000#32 = 0x11002000#32 := by decide
theorem test_sigma1 : sigma1 0x12345678#32 = 0xA1F78649#32 ∧ sigma1 0x80000000#32 = 0x00205000#32 := by decide
theorem test_bigSigma0 : bigSigma0 0x12345678#32 = 0x66146474#32 := by decide
theorem test_bigSigma1 : bigSigma1 0x12345678#32 = 0x3561ABDA#32 := by decide
theorem test_ch : ch 0xF0F0F0F0#32 0xFF00FF00#32 0x0F0F0F0F#32 = 0xFF0FFF0F#32 := by decide
theorem test_maj : maj 0xF0F0F0F0#32 0xFF00FF00#32 0x0F0F0F0F#32 = 0xFF00FF00#32 := by decide

/-! ## The padder (V20 to V22) -/

theorem test_padLen : padLen 0 = 64 ∧ padLen 55 = 64 ∧ padLen 56 = 128 ∧ padLen 119 = 128 ∧ padLen 120 = 192 ∧
    padLen 2305843009213693951 = 2305843009213694016 := by decide
theorem test_bitLen : bitLen 2305843009213693951 = 0xFFFFFFFFFFFFFFF8#64 ∧ bitLen 2147483648 = 0x400000000#64 := by
  decide
theorem test_padByte_abc : (abcBusy 1#3 0).padByte 2 = 0x63#8 ∧ (abcBusy 1#3 0).padByte 3 = 0x80#8 ∧
    (abcBusy 1#3 0).padByte 4 = 0x00#8 ∧ (abcBusy 1#3 0).padByte 55 = 0x00#8 ∧
    (abcBusy 1#3 0).padByte 63 = 0x18#8 := by decide
theorem test_padByte_boundary :
    State.padByte { State.reset with Lq := 55#64 } 55 = 0x80#8 ∧
    State.padByte { State.reset with Lq := 55#64 } 62 = 0x01#8 ∧
    State.padByte { State.reset with Lq := 56#64 } 126 = 0x01#8 ∧
    State.padByte { State.reset with Lq := 56#64 } 127 = 0xC0#8 := by decide

/-! ## Host transactions (V80) -/

theorem test_ctrlNop : nextOf (exec (.ctrlNop 0xFFFFFFF#28) abcDone) id = some abcDone := by decide
theorem test_ctrlRsvd : nextOf (exec (.ctrlRsvd 2#4 0xFFFFFFF#28) State.reset) id = some State.reset := by decide
/-- The example of R233: LEN = 3 and "abc" give BUSY, pc = (SCHED_LOAD, 0, 0) and the IV. -/
theorem test_ctrlStart_accepts : nextOf (exec (.ctrlStart 0#28) abcIdle) id = some (abcBusy 1#3 0) := by decide
/-- L = 2^61, 2^64 - 1, 2^61 - 1, 257 and 256. -/
theorem test_ctrlStart_lengths :
    nextOf (exec (.ctrlStart 1#28) (withLength 0x20000000#32 0#32)) (·.status.word) = some 0x00000014#32 ∧
    nextOf (exec (.ctrlStart 0#28) (withLength 0xFFFFFFFF#32 0xFFFFFFFF#32)) (·.status.word) = some 0x00000014#32 ∧
    nextOf (exec (.ctrlStart 0#28) (withLength 0x1FFFFFFF#32 0xFFFFFFFF#32)) (·.status.word) = some 0x00000024#32 ∧
    nextOf (exec (.ctrlStart 0#28) (withLength 0#32 257#32)) (·.status.word) = some 0x00000024#32 ∧
    nextOf (exec (.ctrlStart 0#28) (withLength 0#32 256#32)) (·.status.word) = some 0x00000001#32 := by decide
theorem test_rdCtrl : nextOf (exec .rdCtrl abcDone) (·.rdata) = some 0#32 := by decide
theorem test_rdStatus : nextOf (exec .rdStatus failed) (·.rdata) = some 0x00000014#32 ∧
    nextOf (exec .rdStatus abcDone) (·.rdata) = some 0x00000002#32 := by decide
theorem test_wrStatus : nextOf (exec (.wrStatus 0xFFFFFFFF#32) failed) id = some failed := by decide
theorem test_rdLenLo : nextOf (exec .rdLenLo abcIdle) (·.rdata) = some 3#32 := by decide
theorem test_wrLenLo : nextOf (exec (.wrLenLo 5#32) State.reset) (·.lenLo) = some 5#32 ∧
    nextOf (exec (.wrLenLo 5#32) (abcBusy 4#3 7)) (·.lenLo) = some 3#32 := by decide
theorem test_rdLenHi : nextOf (exec .rdLenHi failed) (·.rdata) = some 0x20000000#32 := by decide
theorem test_wrLenHi : nextOf (exec (.wrLenHi 5#32) State.reset) (·.lenHi) = some 5#32 ∧
    nextOf (exec (.wrLenHi 5#32) (abcBusy 4#3 7)) (·.lenHi) = some 0#32 := by decide
theorem test_rdCapacity : nextOf (exec .rdCapacity State.reset) (·.rdata) = some 0x00000100#32 ∧
    nextOf (exec .rdCapacity (State.resetWith ⟨0x1FFFFFFF#29⟩)) (·.rdata) = some 0x80000000#32 := by decide
theorem test_wrCapacity : nextOf (exec (.wrCapacity 0#32) State.reset) id = some State.reset := by decide
theorem test_rdDigest : nextOf (exec (.rdDigest 7) abcDone) (·.rdata) = some 0xF20015AD#32 ∧
    nextOf (exec (.rdDigest 0) (abcBusy 1#3 0)) (·.rdata) = some 0#32 := by decide
theorem test_wrDigest : nextOf (exec (.wrDigest 0 0#32) abcDone) id = some abcDone := by decide
/-- V60: "ba78", "cfea" and "15ad". -/
theorem test_rdHex : nextOf (exec (.rdHex 0) abcDone) (·.rdata) = some 0x62613738#32 ∧
    nextOf (exec (.rdHex 3) abcDone) (·.rdata) = some 0x63666561#32 ∧
    nextOf (exec (.rdHex 15) abcDone) (·.rdata) = some 0x31356164#32 := by decide
theorem test_wrHex : nextOf (exec (.wrHex 0 0#32) abcDone) id = some abcDone := by decide
theorem test_rdMsg : nextOf (exec (.rdMsg 0#29) (abcBusy 4#3 7)) (·.rdata) = some 0x61626300#32 := by decide
theorem test_wrMsg : nextOf (exec (.wrMsg 0#29 0x61626300#32) State.reset) (·.mem) =
      some [(0, 0x61#8), (1, 0x62#8), (2, 0x63#8), (3, 0x00#8)] ∧
    nextOf (exec (.wrMsg 0#29 0x78787878#32) (abcBusy 1#3 0)) (·.mem) = some abcMem := by decide
theorem test_rdRsvd : nextOf (exec (.rdRsvd 5#30) abcDone) (·.rdata) = some 0#32 := by decide
theorem test_wrRsvd : nextOf (exec (.wrRsvd 0x20000040#30 0x12345678#32) State.reset) id = some State.reset := by decide

/-! ## Engine operations -/

theorem test_engIdle : nextOf (exec .engIdle State.reset) id = some State.reset := by decide
/-- V30: W[0] and W[15] of "abc". -/
theorem test_engSchedLoad : nextOf (exec .engSchedLoad (abcBusy 1#3 0)) (fun t => (t.W[0], t.W[1], t.W[15], t.pc)) =
    some (0x61626380#32, 0x00000000#32, 0x00000018#32, ⟨2#3, 0, 16⟩) := by decide
/-- R319: LEN = 3 with nothing written. -/
theorem test_engSchedLoad_fault :
    faultOf (exec .engSchedLoad { abcBusy 1#3 0 with mem := [] }) = some (.unwrittenMessageWord 0) := by decide
/-- V31, first two rows. -/
theorem test_engSchedExpand_wraps :
    nextOf (exec .engSchedExpand { abcBusy 2#3 63 with W := Vector.replicate 64 0xFFFFFFFF#32 })
      (fun t => (t.W[63], t.W[62], t.pc)) = some (0x203FFFFC#32, 0xFFFFFFFF#32, ⟨3#3, 0, 0⟩) := by decide
theorem test_engSchedExpand_operands :
    nextOf (exec .engSchedExpand { abcBusy 2#3 16 with
        W := (((Vector.replicate 64 0#32).set 14 0x80000000#32).set 1 0x00000001#32).set 0 0x12345678#32 })
      (fun t => (t.W[16], t.pc)) = some (0x1454E678#32, ⟨2#3, 0, 17⟩) := by decide
/-- V40, row init. -/
theorem test_engRoundInit : nextOf (exec .engRoundInit (abcBusy 3#3 0)) (fun t => (t.work, t.pc)) =
    some (⟨0x6A09E667#32, 0xBB67AE85#32, 0x3C6EF372#32, 0xA54FF53A#32,
           0x510E527F#32, 0x9B05688C#32, 0x1F83D9AB#32, 0x5BE0CD19#32⟩, ⟨4#3, 0, 0⟩) := by decide
/-- V41, second row: a sum of five words wraps. -/
theorem test_engRound_wraps :
    nextOf (exec .engRound { abcBusy 4#3 0 with
        W := Vector.replicate 64 0xFFFFFFFF#32
        work := ⟨0xFFFFFFFF#32, 0xFFFFFFFF#32, 0xFFFFFFFF#32, 0xFFFFFFFF#32,
                 0xFFFFFFFF#32, 0xFFFFFFFF#32, 0xFFFFFFFF#32, 0xFFFFFFFF#32⟩ })
      (fun t => (t.work, t.pc)) =
    some (⟨0x428A2F92#32, 0xFFFFFFFF#32, 0xFFFFFFFF#32, 0xFFFFFFFF#32,
           0x428A2F93#32, 0xFFFFFFFF#32, 0xFFFFFFFF#32, 0xFFFFFFFF#32⟩, ⟨4#3, 0, 1⟩) := by decide
/-- V41, third row. -/
theorem test_engRound_last :
    nextOf (exec .engRound { abcBusy 4#3 63 with
        W := (Vector.replicate 64 0#32).set 63 0x12345678#32
        work := ⟨1#32, 2#32, 3#32, 4#32, 5#32, 6#32, 7#32, 8#32⟩ })
      (fun t => (t.work, t.pc)) =
    some (⟨0x2D4DD5FB#32, 1#32, 2#32, 3#32, 0xED45D1FC#32, 5#32, 6#32, 7#32⟩, ⟨5#3, 0, 0⟩) := by decide
/-- V40's last row and FOLD: H[0] and H[7] of the digest, and the computation ends. -/
theorem test_engFold_last :
    nextOf (exec .engFold { abcBusy 5#3 0 with
        work := ⟨0x506E3058#32, 0xD39A2165#32, 0x04D24D6C#32, 0xB85E2CE9#32,
                 0x5EF50F24#32, 0xFB121210#32, 0x948D25B6#32, 0x961F4894#32⟩ })
      (fun t => (t.H, t.pc.phase, t.status)) =
    some (abcDone.H, 0#3, ⟨false, true, false, 0#4⟩) := by decide
/-- V42, and the next block. -/
theorem test_engFold_wraps :
    nextOf (exec .engFold { abcBusy 5#3 0 with
        NB := 2
        H := Vector.replicate 8 0xFFFFFFFF#32
        work := ⟨1#32, 1#32, 1#32, 1#32, 1#32, 1#32, 1#32, 1#32⟩ })
      (fun t => (t.H, t.pc, t.status.busy)) = some (Vector.replicate 8 0#32, ⟨1#3, 1, 0⟩, true) := by decide
theorem test_engRsvd : nextOf (exec (.engRsvd 0#1) (abcBusy 6#3 0)) id = some (abcBusy 6#3 0) := by decide

/-! ## One step -/

theorem test_step_reset : nextOf (step { abcBusy 4#3 7 with events := [.reset] })
    (fun t => (t.status, t.pc.phase, t.lenLo, t.mem.length, t.events)) =
    some (⟨false, false, false, 0#4⟩, 0#3, 0#32, 0, []) := by decide
theorem test_step_host : nextOf (step { abcBusy 4#3 7 with events := [.host ⟨.rd, 0x00B#32, 0#32⟩, .engine] })
    (fun t => (t.rdata, t.pc.t, t.events)) = some (3#32, 7, [.engine]) := by decide
theorem test_step_engine : nextOf (step (abcBusy 3#3 0)) (·.pc) = some ⟨4#3, 0, 0⟩ := by decide
theorem test_withFetchWord_transaction :
    nextOf (step (State.reset.withFetchWord 72 (0x180000000 + 0x61626300 * 2 ^ 40))) (·.mem) = some abcMem := by decide
theorem test_withFetchWord_phase :
    nextOf (step (State.reset.withFetchWord 8 3)) (·.pc) = some ⟨4#3, 0, 0⟩ := by decide

/-! ## Witnesses: the hypotheses of the statements can be met, clause by clause

Some witnesses serve several statements: witness_StartFollowsItsRule also LengthOverflowIsReported,
LengthCapacityIsReported and ErrorRecordsOnlyStatus, with witness_ErrorCodesAreProduced for the clauses on who produces
a code; witness_ResetEvents: ResetAbortsComputation; witness_StepsThatWriteStatus: ErrorFlagsLastUntilStartOrReset,
OnlyStartFoldAndResetWriteHash and OnlyStartFoldAndResetWriteBusy; witness_BusyAndIdle: LengthWritesStoreOnlyWhileIdle
and MessageWriteStoresOneWord; witness_DoneAndNotDone: DigestReadsHashWord, HexReadsRenderDigest and NoPartialResults. -/

theorem abcMem_wholeWords : abcMem.wholeWords :=
  Memory.wholeWords_setWord (m := []) (fun _ _ _ => rfl) 0 _

/-- A state of the invariant in each phase of a computation. -/
theorem abcBusy_inv (phase : BitVec 3) (t : Fin 64) (h0 : phase ≠ 0#3) (h5 : phase.toNat ≤ 5)
    (ht : phase = 1#3 ∨ phase = 3#3 ∨ phase = 5#3 → t.val = 0) (hx : phase = 2#3 → 16 ≤ t.val) :
    (abcBusy phase t).Inv where
  busy_clear := by intro _; exact ⟨rfl, rfl⟩
  done_clear := by intro _; rfl
  err_code := by show false = false ↔ 0#4 = 0#4; decide
  code_legal := by show (0#4).toNat ≤ 2; decide
  busy_phase := ⟨fun _ => h0, fun _ => rfl⟩
  phase_legal := h5
  latched := by intro _; show 3 ≤ 256 ∧ 1 = blocksOf 3 ∧ 0 < 1; decide
  t_zero := ht
  t_expand := hx
  mem_wf := by show abcMem.wf; decide
  mem_inBuffer := by show abcMem.inBuffer Config.defaultParams; decide
  mem_wholeWords := abcMem_wholeWords

theorem abcDone_inv : abcDone.Inv where
  busy_clear := by decide
  done_clear := by decide
  err_code := by decide
  code_legal := by decide
  busy_phase := by decide
  phase_legal := by decide
  latched := by decide
  t_zero := by decide
  t_expand := by decide
  mem_wf := by show abcMem.wf; decide
  mem_inBuffer := by show abcMem.inBuffer Config.defaultParams; decide
  mem_wholeWords := abcMem_wholeWords

theorem failed_inv : failed.Inv where
  busy_clear := by decide
  done_clear := by decide
  err_code := by decide
  code_legal := by decide
  busy_phase := by decide
  phase_legal := by decide
  latched := by decide
  t_zero := by decide
  t_expand := by decide
  mem_wf := List.Pairwise.nil
  mem_inBuffer := by intro c hc; cases hc
  mem_wholeWords := fun _ _ _ => rfl

theorem witness_DecodeInvertsEncode :
    Instr.wf Config.defaultParams (.ctrlRsvd 2#4 0#28) = true ∧ Instr.wf Config.defaultParams (.rdMsg 63#29) = true ∧
    Instr.wf Config.defaultParams (.rdRsvd 5#30) = true ∧ Instr.wf Config.defaultParams (.rdRsvd 0x18#30) = true ∧
    Instr.wf Config.defaultParams (.wrRsvd 0x1FFFFFFF#30 0#32) = true ∧
    Instr.wf Config.defaultParams (.wrRsvd 0x3FFFFFFF#30 0#32) = true := by decide

/-- The ends of each range, in one list: offset and the number of the range. -/
theorem witness_OffsetMapFollowsItsRanges :
    let p := Config.defaultParams
    (0x3 ≤ 0x3 ∧ (0x4 ≤ 0x7 ∧ 0x7 ≤ 0x7) ∧ (0x8 ≤ 0xB ∧ 0xB ≤ 0xB) ∧ (0xC ≤ 0xF ∧ 0xF ≤ 0xF) ∧
      (0x10 ≤ 0x13 ∧ 0x13 ≤ 0x13)) ∧
    (0x5F / 4 = 0x40 / 4 + (7 : Fin 8).val ∧ 0x40 / 4 = 0x40 / 4 + (0 : Fin 8).val) ∧
    (0xBF / 4 = 0x80 / 4 + (15 : Fin 16).val ∧ 0x80 / 4 = 0x80 / 4 + (0 : Fin 16).val) ∧
    (0x800000FF / 4 = 0x80000000 / 4 + (63#29).toNat ∧ 4 * (63#29).toNat < p.msgCap) ∧
    ((5#30).toNat = 0x14 / 4 ∧ 0x14 ≤ 0x3F) ∧ ((0x1F#30).toNat = 0x7F / 4 ∧ 0x60 ≤ 0x7F) ∧
    ((0x1FFFFFFF#30).toNat = 0x7FFFFFFF / 4 ∧ 0xC0 ≤ 0x7FFFFFFF) ∧
    ((0x20000040#30).toNat = 0x80000100 / 4 ∧ 0x80000000 + p.msgCap ≤ 0x80000100) := by decide

theorem witness_CommandIsSelectedByLowNibble : (0xFFFFFFF0#32).toNat % 16 = 0 ∧ (0x00000011#32).toNat % 16 = 1 ∧
    2 ≤ (0xFFFFFFF2#32).toNat % 16 ∧ 2 ≤ (0x0000000F#32).toNat % 16 := by decide

theorem witness_StepTakesTheNextEvent :
    let s : State := { abcIdle with events := [.host ⟨.wr, 0x000#32, 1#32⟩, .engine] }
    s.events = .host ⟨.wr, 0x000#32, 1#32⟩ :: [.engine] ∧
    decodeTransaction s.params ⟨.wr, 0x000#32, 1#32⟩ = .ctrlStart 0#28 ∧
    (abcBusy 3#3 0).events = [] ∧ decode s.params (abcBusy 3#3 0).engineCode = .engRoundInit ∧
    State.events { abcBusy 3#3 0 with events := [.engine] } = .engine :: [] ∧
    State.events { abcBusy 4#3 7 with events := [.reset] } = .reset :: [] := by decide

theorem witness_EngineStepsExactlyWhileBusy :
    ((abcBusy 3#3 0).status.busy = true ∧ (abcBusy 3#3 0).Inv) ∧ abcDone.status.busy = false ∧ abcDone.Inv :=
  ⟨⟨rfl, abcBusy_inv _ _ (by decide) (by decide) (by decide) (by decide)⟩, rfl, abcDone_inv⟩

theorem witness_ResetEvents : State.events { abcBusy 4#3 7 with events := [.reset] } = .reset :: [] := rfl

theorem witness_EveryStepKeepsInvariant : (abcBusy 3#3 0).Inv ∧
    nextOf (step (abcBusy 3#3 0)) (·.pc) = some ⟨4#3, 0, 0⟩ :=
  ⟨abcBusy_inv _ _ (by decide) (by decide) (by decide) (by decide), by decide⟩

theorem witness_OnlySchedLoadStops :
    faultOf (exec .engSchedLoad { abcBusy 1#3 0 with mem := [] }) = some (.unwrittenMessageWord 0) ∧
    faultOf (step { abcBusy 1#3 0 with mem := [] }) = some (.unwrittenMessageWord 0) := by decide

theorem witness_messageWritten : (abcBusy 1#3 0).messageWritten (abcBusy 1#3 0).Lq.toNat := by
  show ∀ i < 3, abcMem.written i = true
  decide

theorem witness_StepsAreTotalUnderHostDuty :
    (abcBusy 1#3 0).Inv ∧ (abcBusy 1#3 0).messageWritten (abcBusy 1#3 0).Lq.toNat :=
  ⟨abcBusy_inv _ _ (by decide) (by decide) (by decide) (by decide), witness_messageWritten⟩

theorem witness_TransactionsNeverFault : Transaction.dir ⟨.rd, 0x004#32, 0#32⟩ = .rd := rfl

/-- START's clauses, each at a boundary: 2^61, 2^61 - 1, MSG_CAP + 1, MSG_CAP, 0, and BUSY = 1. -/
theorem witness_StartFollowsItsRule :
    (abcBusy 1#3 0).status.busy = true ∧
    (2 ^ 61 ≤ (0x20000000#32).toNat * 2 ^ 32 + (0#32).toNat ∧
      (withLength 0x20000000#32 0#32).status.busy = false) ∧
    ((0x1FFFFFFF#32).toNat * 2 ^ 32 + (0xFFFFFFFF#32).toNat < 2 ^ 61 ∧
      State.reset.params.msgCap < (0x1FFFFFFF#32).toNat * 2 ^ 32 + (0xFFFFFFFF#32).toNat) ∧
    State.reset.params.msgCap < (0#32).toNat * 2 ^ 32 + (257#32).toNat ∧
    (0#32).toNat * 2 ^ 32 + (256#32).toNat = State.reset.params.msgCap ∧
    (0#32).toNat * 2 ^ 32 + (0#32).toNat ≤ State.reset.params.msgCap := by decide

/-- An instruction that produces each error code where it was not. -/
theorem witness_ErrorCodesAreProduced :
    nextOf (exec (.ctrlStart 0#28) (withLength 0x20000000#32 0#32)) (·.status.errcode) = some 0x1#4 ∧
    (withLength 0x20000000#32 0#32).status.errcode ≠ 0x1#4 ∧
    nextOf (exec (.ctrlStart 0#28) (withLength 0#32 257#32)) (·.status.errcode) = some 0x2#4 ∧
    (withLength 0#32 257#32).status.errcode ≠ 0x2#4 := by decide

/-- A step in each case of the statements about ERR, H and BUSY: an accepted START, a failing START, the last FOLD. -/
theorem witness_StepsThatWriteStatus :
    nextOf (step { abcIdle with events := [.host ⟨.wr, 0x000#32, 1#32⟩] }) (fun t => (t.status.busy, t.H)) =
      some (true, IV) ∧
    nextOf (step { withLength 1#32 0#32 with events := [.host ⟨.wr, 0x000#32, 1#32⟩] }) (·.status.err) = some true ∧
    nextOf (step (abcBusy 5#3 0)) (fun t => (t.status.busy, t.H)) =
      some (false, folded (abcBusy 5#3 0).H (abcBusy 5#3 0).work) := by decide

theorem witness_StaleHighLengthRaisesError :
    (withLength 1#32 3#32).status.busy = false ∧ (withLength 1#32 3#32).lenHi ≠ 0#32 := by decide

theorem witness_StatusReadsOneOfFiveWords : (abcBusy 1#3 0).Inv ∧ abcDone.Inv ∧ failed.Inv :=
  ⟨abcBusy_inv _ _ (by decide) (by decide) (by decide) (by decide), abcDone_inv, failed_inv⟩

theorem witness_BusyAndIdle : (abcBusy 1#3 0).status.busy = true ∧ abcIdle.status.busy = false := by decide

theorem witness_MessageReadReturnsStoredWord :
    abcMem.get? (4 * (0#29).toNat + (0 : Fin 4).val) = some 0x61#8 ∧
    abcMem.get? (4 * (0#29).toNat + (3 : Fin 4).val) = some 0x00#8 ∧ State.reset.status.busy = false ∧
    nextOf (exec (.wrMsg 63#29 0x01020304#32) State.reset) (·.mem.written 255) = some true := by decide

theorem witness_ReadsHaveNoSideEffect : Instr.isRead (.rdMsg 0#29) = true ∧ State.reset.status.busy = false ∧
    (abcBusy 4#3 7).status.busy = true ∧
    nextOf (exec (.wrMsg 63#29 0x01020304#32) State.reset) (·.mem) =
      some [(252, 0x01#8), (253, 0x02#8), (254, 0x03#8), (255, 0x04#8)] := by decide

theorem witness_DoneAndNotDone : abcDone.status.done = true ∧ failed.status.done = false ∧ failed.status.err = true := by
  decide

/-- Two different states with DONE = 1 that read the same HEX words. -/
theorem witness_HexReadsDetermineDigest : ∀ j : Fin 16,
    nextOf (exec (.rdHex j) abcDone) (·.rdata) = nextOf (exec (.rdHex j) { abcDone with lenLo := 0#32 }) (·.rdata) := by
  decide

theorem witness_PaddedLengthIsLeastMultiple : 64 ∣ 64 ∧ 55 + 9 ≤ 64 ∧ 64 ∣ 128 ∧ 56 + 9 ≤ 128 := by decide

theorem witness_PaddingInvariants :
    (abcBusy 1#3 0).Lq.toNat ≤ (abcBusy 1#3 0).params.msgCap ∧ 2 < (abcBusy 1#3 0).Lq.toNat ∧
    (abcBusy 1#3 0).Lq.toNat < 4 ∧ 55 < padLen (abcBusy 1#3 0).Lq.toNat - 8 := by decide

theorem abcBusy_holdsMessage : (abcBusy 1#3 0).holdsMessage [0x61#8, 0x62#8, 0x63#8] := by
  intro i h
  have : i = 0 ∨ i = 1 ∨ i = 2 := by simp only [List.length_cons, List.length_nil] at h; omega
  rcases this with rfl | rfl | rfl <;> rfl

theorem witness_PadderComputesReferencePadding : (abcBusy 1#3 0).holdsMessage [0x61#8, 0x62#8, 0x63#8] ∧
    (abcBusy 1#3 0).Lq.toNat = 3 ∧ 3 ≤ (abcBusy 1#3 0).params.msgCap :=
  ⟨abcBusy_holdsMessage, by decide, by decide⟩

/-- V23: "abc" with 0x00 and with 0xFF after it. -/
theorem witness_BytesBeyondLengthDoNotMatter :
    let s := abcBusy 1#3 0
    let u := { abcBusy 1#3 0 with mem := Memory.setWord [] 0 0x616263FF#32 }
    s.Lq = u.Lq ∧ s.pc = u.pc ∧ s.Lq.toNat ≤ s.params.msgCap ∧ s.pc.blk < blocksOf s.Lq.toNat ∧
    (∀ i, i < s.Lq.toNat → s.mem.get? i = u.mem.get? i) ∧ s.mem.get? 3 ≠ u.mem.get? 3 ∧
    nextOf (exec .engSchedLoad u) (·.W[0]) = some 0x61626380#32 := by decide

/-- "abc" in its last block; and a word whose four bytes lie below Lq. -/
theorem witness_SchedLoadFillsFirstWords :
    (∀ i, i < 64 → i < (abcBusy 1#3 0).Lq.toNat → (abcBusy 1#3 0).mem.written i = true) ∧
    (abcBusy 1#3 0).pc.blk + 1 = blocksOf (abcBusy 1#3 0).Lq.toNat ∧
    State.firstUnwritten { abcBusy 1#3 0 with Lq := 4#64 } 0 = none ∧
    64 * 0 + 4 * (0 : Fin 64).val + 3 < (4#64).toNat := by decide

theorem witness_SchedLoadFaultsOnUnwrittenWord :
    faultOf (exec .engSchedLoad { abcBusy 1#3 0 with Lq := 5#64 }) = some (.unwrittenMessageWord 1) ∧
    4 < (5#64).toNat ∧ abcMem.written 4 = false ∧
    State.reset.status.busy = false := by decide

theorem witness_SchedExpandDerivesNextWord :
    16 ≤ (abcBusy 2#3 16).pc.t.val ∧ (abcBusy 2#3 62).pc.t.val < 63 ∧ (abcBusy 2#3 63).pc.t.val = 63 := by decide

theorem witness_RoundFollowsItsRule : (abcBusy 4#3 62).pc.t.val < 63 ∧ (abcBusy 4#3 63).pc.t.val = 63 := by decide

theorem witness_FoldAddsWorkIntoHash :
    (abcBusy 5#3 0).NB ≤ (abcBusy 5#3 0).pc.blk + 1 ∧
    (abcBusy 5#3 0).pc.blk + 1 < State.NB { abcBusy 5#3 0 with NB := 2 } := by decide

theorem witness_ChSelectsAndMajVotes : 0 < 32 ∧ 31 < 32 := by decide

theorem witness_ConstantsAreRootsOfPrimes : 311 < 312 ∧ 311 ∈ firstPrimes ∧ 310 ∉ firstPrimes := by decide

/-- A step in the middle, the last FOLD, an accepted START (at L = MSG_CAP), and another host instruction. -/
theorem witness_EngineFollowsSuccessorFunction :
    ((abcBusy 3#3 0).Inv ∧ (abcBusy 5#3 0).Inv) ∧
    nextOf (exec (decodePhase 3#3) (abcBusy 3#3 0)) (·.pc) = some ⟨4#3, 0, 0⟩ ∧
    nextOf (exec (decodePhase 5#3) (abcBusy 5#3 0)) (·.pc) = some ⟨0#3, 0, 0⟩ ∧
    ((abcBusy 5#3 0).pc.phase = 5#3 ∧ (abcBusy 5#3 0).pc.blk + 1 = (abcBusy 5#3 0).NB) ∧
    ((withLength 0#32 256#32).status.busy = false ∧
      (withLength 0#32 256#32).lenHi.toNat * 2 ^ 32 + (withLength 0#32 256#32).lenLo.toNat ≤
        (withLength 0#32 256#32).params.msgCap) ∧
    (Instr.isHost (.wrLenLo 5#32) = true ∧ ¬∃ hi, Instr.wrLenLo 5#32 = .ctrlStart hi) ∧
    nextOf (exec (.ctrlStart 0#28) abcIdle) (·.pc) = some ⟨1#3, 0, 0⟩ :=
  ⟨⟨abcBusy_inv _ _ (by decide) (by decide) (by decide) (by decide),
    abcBusy_inv _ _ (by decide) (by decide) (by decide) (by decide)⟩, by decide, by decide, by decide, by decide,
    ⟨rfl, fun ⟨_, h⟩ => by cases h⟩, by decide⟩

/-- Two computations with different data in step. -/
theorem witness_ControlFlowIsDataIndependent :
    let s := abcBusy 4#3 7
    let u := { abcBusy 4#3 7 with work := ⟨1#32, 2#32, 3#32, 4#32, 5#32, 6#32, 7#32, 8#32⟩ }
    s.pc = u.pc ∧ s.NB = u.NB ∧ s.status.busy = u.status.busy ∧ s.events = [] ∧ u.events = [] ∧
    nextOf (step s) (·.pc.t) = some 8 ∧ nextOf (step u) (·.pc.t) = some 8 := by decide

theorem witness_EngineLeavesHostInputsAlone : Instr.isHost .engFold = false ∧
    nextOf (exec .engFold (abcBusy 5#3 0)) (·.lenLo) = some 3#32 := by decide

theorem witness_HostCannotDisturbComputation :
    (abcBusy 4#3 7).status.busy = true ∧ Instr.isHost (.wrMsg 0#29 0x78787878#32) = true := by decide

/-- Two states that differ in a hidden register. -/
theorem witness_HiddenStateIsUnobservable : Instr.isHost (.rdDigest 0) = true ∧
    (abcBusy 4#3 7).HostAgrees { abcBusy 4#3 8 with H := Vector.replicate 8 0#32 } :=
  ⟨rfl, rfl, rfl, rfl, rfl, rfl, rfl, fun h => by cases h⟩

theorem witness_BlockCompressesInto115Steps :
    (abcBusy 1#3 0).status.busy = true ∧ (abcBusy 1#3 0).events = [] ∧ (abcBusy 1#3 0).pc.phase = 1#3 ∧
    (abcBusy 1#3 0).messageWritten (abcBusy 1#3 0).Lq.toNat ∧ (abcBusy 1#3 0).NB ≤ (abcBusy 1#3 0).pc.blk + 1 :=
  ⟨rfl, rfl, rfl, witness_messageWritten, by decide⟩

theorem witness_ComputationTakesExactly115Steps :
    abcIdle.status.busy = false ∧ abcIdle.events = [] ∧ abcIdle.holdsMessage [0x61#8, 0x62#8, 0x63#8] ∧
    abcIdle.length.toNat = 3 ∧ 3 ≤ abcIdle.params.msgCap ∧
    nextOf (exec (.ctrlStart 0#28) abcIdle) id = some (abcBusy 1#3 0) :=
  ⟨rfl, rfl, abcBusy_holdsMessage, by decide, by decide, by decide⟩

theorem witness_HashScriptComputesSha256 :
    let msg := [0x61#8, 0x62#8, 0x63#8]
    let s := { State.reset with events := scriptEvents (scriptBeginHash msg) }
    s.status.busy = false ∧ msg.length ≤ s.params.msgCap ∧ s.events = scriptEvents (scriptBeginHash msg) :=
  ⟨rfl, by decide, rfl⟩

end Sys2Proof.Tests
end

section
/-! PROOFS of the family 20_memory.md: the offset map (R73) and the absence of side effects (R72). -/

namespace Sys2Proof

/-! ## Offsets of one word -/

/-- Offsets of the same word name the same region (20_memory.md R69). -/
theorem region_congr (p : Params) {a b : BitVec 32} (h : a.toNat / 4 = b.toNat / 4) : region p a = region p b := by
  have key : (Transaction.key ⟨.rd, a, 0#32⟩).extractLsb' 0 32 = (Transaction.key ⟨.rd, b, 0#32⟩).extractLsb' 0 32 :=
    BitVec.eq_of_toNat_eq (by simp only [Transaction.key_low_toNat, h])
  rw [← region_key p ⟨.rd, a, 0#32⟩, key, region_key]

/-- The read row and the write row of an offset that lies in the word of an offset whose region is known. -/
theorem decodeTransaction_of_region {p : Params} {off base : BitVec 32} {r : Region} (hr : region p base = r)
    (h : off.toNat / 4 = base.toNat / 4) (w : Word) :
    decodeTransaction p ⟨.rd, off, w⟩ = readRow r ∧ decodeTransaction p ⟨.wr, off, w⟩ = writeRow w r := by
  rw [decodeTransaction_rd, decodeTransaction_wr, region_congr p h, hr]
  exact ⟨rfl, rfl⟩

/-- The word of an offset in a reserved range of 20_memory.md R73 is reserved. -/
theorem isReservedWord_of_range {p : Params} {n : Nat} {word : BitVec 30} (hw : word.toNat = n / 4)
    (h : (0x14 ≤ n ∧ n ≤ 0x3F) ∨ (0x60 ≤ n ∧ n ≤ 0x7F) ∨ (0xC0 ≤ n ∧ n ≤ 0x7FFFFFFF) ∨ 0x80000000 + p.msgCap ≤ n) :
    isReservedWord p word = true := by
  have hm := p.msgCap_mod
  simp only [isReservedWord, hw, Bool.or_eq_true, decide_eq_true_eq]
  omega

end Sys2Proof

namespace Sys2Proof.Machine

/-- Settles O5: each range holds the offsets of the words that the encoder gives its rows, and an offset decodes as the
first offset of its word does. -/
theorem offsetMapFollowsItsRanges : Obligations.OffsetMapFollowsItsRanges := by
  unfold Obligations.OffsetMapFollowsItsRanges
  intro p off w
  refine ⟨fun h => ?ctrl, fun h => ?status, fun h => ?lenLo, fun h => ?lenHi, fun h => ?capacity, fun k h => ?digest,
    fun j h => ?hex, fun m ⟨h, hm⟩ => ?msg, fun word hw h => ?reserved⟩
  case ctrl => exact decodeTransaction_of_region (base := 0x0#32) rfl (by simp; omega) w
  case status => exact decodeTransaction_of_region (base := 0x4#32) rfl (by simp; omega) w
  case lenLo => exact decodeTransaction_of_region (base := 0x8#32) rfl (by simp; omega) w
  case lenHi => exact decodeTransaction_of_region (base := 0xC#32) rfl (by simp; omega) w
  case capacity => exact decodeTransaction_of_region (base := 0x10#32) rfl (by simp; omega) w
  case digest =>
    exact decodeTransaction_of_region (region_digestOffset p k) (by rw [digestOffset_toNat]; omega) w
  case hex => exact decodeTransaction_of_region (region_hexOffset p j) (by rw [hexOffset_toNat]; omega) w
  case msg => exact decodeTransaction_of_region (region_msgOffset hm) (by rw [msgOffset_toNat]; omega) w
  case reserved =>
    obtain ⟨hrd, hwr⟩ := decodeTransaction_of_region (region_wordOffset (isReservedWord_of_range hw h))
      (off := off) (by rw [wordOffset_toNat]; omega) w
    exact ⟨hrd, hwr, fun s => by rw [hrd, hwr]; exact ⟨rfl, rfl⟩⟩

/-! ## Reads and storing writes, each as one equation -/

/-- A read row replies with a view of the state that does not look at `rdata` (20_memory.md R72). -/
theorem exec_read_replies {i : Instr} (h : i.isRead = true) : ∃ view : State → Word,
    (∀ s, exec i s = .next (s.reply (view s))) ∧ ∀ s v, view (s.reply v) = view s := by
  cases i with
  | rdCtrl => exact ⟨fun _ => 0x00000000#32, fun _ => rfl, fun _ _ => rfl⟩
  | rdStatus => exact ⟨fun s => s.status.word, fun _ => rfl, fun _ _ => rfl⟩
  | rdLenLo => exact ⟨State.lenLo, fun _ => rfl, fun _ _ => rfl⟩
  | rdLenHi => exact ⟨State.lenHi, fun _ => rfl, fun _ _ => rfl⟩
  | rdCapacity => exact ⟨State.capacity, fun _ => rfl, fun _ _ => rfl⟩
  | rdDigest k => exact ⟨(State.digestView · k), fun _ => rfl, fun _ _ => rfl⟩
  | rdHex j => exact ⟨(State.hexView · j), fun _ => rfl, fun _ _ => rfl⟩
  | rdMsg m => exact ⟨(State.msgWord · m.toNat), fun _ => rfl, fun _ _ => rfl⟩
  | rdRsvd word => exact ⟨fun _ => 0x00000000#32, fun _ => rfl, fun _ _ => rfl⟩
  | _ => cases h

/-- WR_LEN_LO stores its word while BUSY = 0 and nothing while BUSY = 1 (46_host_interface.md R237). -/
theorem exec_wrLenLo (w : Word) (s : State) :
    exec (.wrLenLo w) s = .next (if s.status.busy then s else { s with lenLo := w }) := by
  rw [exec, execWrLenLo, State.setLenLo]
  split <;> rfl

/-- WR_LEN_HI stores its word while BUSY = 0 and nothing while BUSY = 1 (46_host_interface.md R239). -/
theorem exec_wrLenHi (w : Word) (s : State) :
    exec (.wrLenHi w) s = .next (if s.status.busy then s else { s with lenHi := w }) := by
  rw [exec, execWrLenHi, State.setLenHi]
  split <;> rfl

/-- WR_MSG stores its word while BUSY = 0 and nothing while BUSY = 1 (46_host_interface.md R247, 20_memory.md R65). -/
theorem exec_wrMsg (m : BitVec 29) (w : Word) (s : State) :
    exec (.wrMsg m w) s =
      .next (if s.status.busy then s else { s with mem := s.mem.setWord (4 * m.toNat) w }) := rfl

/-- Settles O33: a read replies with a view that the reply does not change; the three storing writes by their
equations; every other write is skip. -/
theorem readsHaveNoSideEffect : Obligations.ReadsHaveNoSideEffect := by
  unfold Obligations.ReadsHaveNoSideEffect
  refine ⟨fun i s hi => ?reads, fun s m w => ⟨fun hb => ?idle, fun hb => ?busy⟩, fun s w => ?skips⟩
  case reads =>
    obtain ⟨view, hexec, hview⟩ := exec_read_replies hi
    have again (v : Word) : exec i (s.reply v) = .next ((s.reply v).reply (view s)) := by rw [hexec, hview]
    exact ⟨view s, hexec s, again⟩
  case idle => simp [exec_wrLenLo, exec_wrLenHi, exec_wrMsg, hb]
  case busy => simp [exec_wrLenLo, exec_wrLenHi, exec_wrMsg, hb]
  case skips => exact ⟨rfl, rfl, fun _ => rfl, fun _ => rfl, fun _ => rfl⟩

end Sys2Proof.Machine
end

section
/-! PROOFS of the family 30_encoding.md: the opcode table (R91) and the command word (R93, R94). -/

namespace Sys2Proof

/-! ## The fields of KEY -/

/-- KEY[32] is the direction (30_encoding.md R91). -/
theorem Transaction.key_dir (t : Transaction) : t.key.extractLsb' 32 1 = t.dir.bit :=
  BitVec.extractLsb'_append_eq_left

/-- KEY[31:2] is the number of the offset's word (30_encoding.md R91). -/
theorem Transaction.key_word (t : Transaction) : t.key.extractLsb' 2 30 = t.off.extractLsb' 2 30 := by
  rw [Transaction.key, BitVec.extractLsb'_append_eq_of_add_le (by decide)]
  exact BitVec.extractLsb'_append_eq_left

/-- KEY[1:0] is zero (30_encoding.md R91). -/
theorem Transaction.key_align (t : Transaction) : t.key.extractLsb' 0 2 = 0#2 := by
  rw [Transaction.key, BitVec.extractLsb'_append_eq_of_add_le (by decide)]
  exact BitVec.extractLsb'_append_eq_right

/-! ## The table as a chain of conditions -/

/-- The first hit of a table, tried row by row. -/
theorem map_find?_cons {α β : Type} (hit : α → Bool) (f : α → β) (r : α) (rows : List α) :
    ((r :: rows).find? hit).map f = if hit r then some (f r) else (rows.find? hit).map f := by
  cases h : hit r <;> simp [h]

/-- When a row matches a transaction: its direction bit, its match and mask on KEY[31:0], and its condition. -/
theorem OpcodeRow.hits_transaction (p : Params) (r : OpcodeRow) (d : Dir) (off : BitVec 32) (w : Word) :
    r.hits p (.transaction ⟨d, off, w⟩) = true ↔
      (d.bit &&& r.maskBits.extractLsb' 32 1 = r.matchBits.extractLsb' 32 1 ∧
        (Transaction.key ⟨d, off, w⟩).extractLsb' 0 32 &&& r.maskBits.extractLsb' 0 32 =
          r.matchBits.extractLsb' 0 32) ∧
      r.condition.holds p (.transaction ⟨d, off, w⟩) = true := by
  have halves (v : BitVec 33) : v = (v.extractLsb' 32 1 ++ v.extractLsb' 0 32 : BitVec 33) :=
    (BitVec.extractLsb'_append_extractLsb' (w := 1) (len := 32)).symm
  rw [OpcodeRow.hits, Bool.and_eq_true, decide_eq_true_eq, Code.key,
    Transaction.key_and_eq_iff d off w _ _ _ _ (halves r.maskBits) (halves r.matchBits)]

/-- The window's condition, on KEY[31:0]. -/
theorem RowCondition.window_holds (p : Params) (d : Dir) (off : BitVec 32) (w : Word) :
    RowCondition.window.holds p (.transaction ⟨d, off, w⟩) = true ↔
      4 * (((Transaction.key ⟨d, off, w⟩).extractLsb' 0 32).extractLsb' 2 29).toNat < p.msgCap := by
  rw [← Transaction.key_window]
  exact decide_eq_true_iff

/-- The command conditions, on CMD (30_encoding.md R91, R93). -/
theorem RowCondition.command_holds (p : Params) (t : Transaction) :
    ((RowCondition.command 0x0#32).holds p (.transaction t) = true ↔ t.wdata.extractLsb' 0 4 = 0x0#4) ∧
    ((RowCondition.command 0x1#32).holds p (.transaction t) = true ↔ t.wdata.extractLsb' 0 4 = 0x1#4) ∧
    (RowCondition.commandRest.holds p (.transaction t) = true ↔
      t.wdata.extractLsb' 0 4 ≠ 0x0#4 ∧ t.wdata.extractLsb' 0 4 ≠ 0x1#4) := by
  have zero : t.wdata &&& 0xF#32 = 0x0#32 ↔ t.wdata.extractLsb' 0 4 = 0x0#4 := and_F_eq_iff t.wdata 0x0#4
  have one : t.wdata &&& 0xF#32 = 0x1#32 ↔ t.wdata.extractLsb' 0 4 = 0x1#4 := and_F_eq_iff t.wdata 0x1#4
  simp only [RowCondition.holds, decide_eq_true_eq, ne_eq, zero, one, and_self]

/-- The first row that a read matches is the read row of its region. -/
theorem hostRows_find?_rd (p : Params) (off : BitVec 32) (w : Word) :
    (hostRows.find? fun r => r.hits p (.transaction ⟨.rd, off, w⟩)).map OpcodeRow.mnemonic =
      some (readRow (region p ((Transaction.key ⟨.rd, off, w⟩).extractLsb' 0 32))).mnemonic := by
  simp only [hostRows, List.cons_append, List.nil_append, map_find?_cons, OpcodeRow.hits_transaction,
    RowCondition.window_holds, Dir.bit, region]
  generalize (Transaction.key ⟨.rd, off, w⟩).extractLsb' 0 32 = o
  simp only [apply_ite readRow, apply_ite Instr.mnemonic, apply_ite some]
  simp [RowCondition.holds, readRow, Instr.mnemonic]

/-- The row of a command, by CMD (30_encoding.md R94). -/
theorem decodeCommand_mnemonic (w : Word) :
    (decodeCommand w).mnemonic =
      if w.extractLsb' 0 4 = 0x0#4 then "CTRL_NOP"
      else if w.extractLsb' 0 4 = 0x1#4 then "CTRL_START" else "CTRL_RSVD" := by
  rw [decodeCommand, apply_ite Instr.mnemonic, apply_ite Instr.mnemonic]
  rfl

/-- The first row that a write matches is the write row of its region: at CTRL, where CMD tells three rows apart, and
at any other offset. -/
theorem hostRows_find?_wr (p : Params) (off : BitVec 32) (w : Word) :
    (hostRows.find? fun r => r.hits p (.transaction ⟨.wr, off, w⟩)).map OpcodeRow.mnemonic =
      some (writeRow w (region p ((Transaction.key ⟨.wr, off, w⟩).extractLsb' 0 32))).mnemonic := by
  obtain ⟨nop, start, rest⟩ := RowCondition.command_holds p ⟨.wr, off, w⟩
  simp only [hostRows, List.cons_append, List.nil_append, map_find?_cons, OpcodeRow.hits_transaction,
    RowCondition.window_holds, nop, start, rest, Dir.bit, region]
  generalize (Transaction.key ⟨.wr, off, w⟩).extractLsb' 0 32 = o
  by_cases hctrl : o &&& 0xFFFFFFFC#32 = 0x0#32
  case pos =>
    rw [if_pos hctrl, writeRow, decodeCommand_mnemonic]
    by_cases h0 : w.extractLsb' 0 4 = 0x0#4
    · simp [hctrl, h0]
    · by_cases h1 : w.extractLsb' 0 4 = 0x1#4
      · simp [hctrl, h1]
      · simp [hctrl, h0, h1]
  case neg =>
    simp only [apply_ite (writeRow w), apply_ite Instr.mnemonic, apply_ite some]
    simp [hctrl, RowCondition.holds, writeRow, Instr.mnemonic]

/-- The first row that a phase matches is the operation it selects (30_encoding.md R100). -/
theorem engineRows_find? (p : Params) (ph : BitVec 3) :
    (engineRows.find? fun r => r.hits p (.enginePhase ph)).map OpcodeRow.mnemonic =
      some (decodePhase ph).mnemonic := by
  match ph with
  | 0#3 => rfl
  | 1#3 => rfl
  | 2#3 => rfl
  | 3#3 => rfl
  | 4#3 => rfl
  | 5#3 => rfl
  | 6#3 => rfl
  | 7#3 => rfl

end Sys2Proof

namespace Sys2Proof.Machine

/-- Settles O4: the chain of conditions that the table's rows make is, row by row, the chain that the decoder makes. -/
theorem decodeIsFirstMatchingTableRow : Obligations.DecodeIsFirstMatchingTableRow := by
  unfold Obligations.DecodeIsFirstMatchingTableRow
  refine ⟨fun t => ⟨t.key_dir, t.key_word, t.key_align⟩, fun p c => ?firstHit, rfl⟩
  case firstHit =>
    match c with
    | .transaction ⟨.rd, off, w⟩ => exact hostRows_find?_rd p off w
    | .transaction ⟨.wr, off, w⟩ => exact hostRows_find?_wr p off w
    | .enginePhase ph => exact engineRows_find? p ph

/-! ## The command word -/

/-- CMD is wdata mod 16 (30_encoding.md R93). -/
theorem command_toNat (w : Word) : (w.extractLsb' 0 4).toNat = w.toNat % 16 := rfl

/-- A write to CTRL is a START when CMD = 1 and skip otherwise; wdata[31:4] plays no part
(30_encoding.md R93, R94, 46_host_interface.md section 1). -/
theorem exec_decodeCommand (w : Word) (s : State) :
    exec (decodeCommand w) s = if w.toNat % 16 = 1 then exec (.ctrlStart 0#28) s else .next s := by
  rw [decodeCommand]
  simp only [← BitVec.toNat_inj, command_toNat, BitVec.toNat_ofNat]
  split
  · next h => rw [if_neg (by omega)]; rfl
  · split <;> rfl

/-- Settles O7: the command acts by its low nibble alone, and clearing the other bits keeps the nibble. -/
theorem commandIsSelectedByLowNibble : Obligations.CommandIsSelectedByLowNibble := by
  unfold Obligations.CommandIsSelectedByLowNibble
  intro w s
  have low : (w &&& 0xF#32).toNat % 16 = w.toNat % 16 := by
    rw [BitVec.toNat_and, show (0xF#32).toNat = 2 ^ 4 - 1 from rfl, Nat.and_two_pow_sub_one_eq_mod, Nat.mod_mod]
  simp only [exec_decodeCommand, low]
  exact ⟨trivial, fun h => if_neg (by omega), fun h => if_pos h, fun h => if_neg (by omega)⟩

end Sys2Proof.Machine
end

section
/-! PROOFS of the family 41_padder.md: PADBYTE over a buffer that holds a message is the reference padding (R123). The
indices below N = Lq + 1 + k + 8 fall into the four ranges of R123; each range spells one part of the padding. -/

namespace Sys2Proof.Machine

/-! ## What PADBYTE spells in each range (41_padder.md R123) -/

/-- A held message byte is what the padder reads there. -/
theorem State.msgByte_of_holdsMessage {s : State} {msg : List Byte} (h : s.holdsMessage msg) {i : Nat}
    (hi : i < msg.length) : s.msgByte i = msg[i] := by
  rw [State.msgByte, h i hi, Option.getD_some]

/-- Below Lq: the message. -/
theorem State.map_padByte_message {s : State} {msg : List Byte} (h : s.holdsMessage msg)
    (hL : s.Lq.toNat = msg.length) : (List.range s.Lq.toNat).map s.padByte = msg := by
  refine List.ext_getElem (by simp [hL]) fun i _ hi => ?_
  rw [List.getElem_map, List.getElem_range, s.padByte_message (hL ▸ hi), State.msgByte_of_holdsMessage h hi]

/-- After the marker: the zero fill (41_padder.md R125). -/
theorem State.map_padByte_zeroFill (s : State) :
    (List.range (Reference.zeroFill s.Lq.toNat)).map (fun k => s.padByte (s.Lq.toNat + 1 + k)) =
      List.replicate (Reference.zeroFill s.Lq.toNat) 0x00#8 := by
  have hN := zeroFill_eq s.Lq.toNat
  refine List.eq_replicate_iff.2 ⟨by simp, fun b hb => ?_⟩
  obtain ⟨k, hk, rfl⟩ := List.mem_map.1 hb
  rw [List.mem_range] at hk
  exact s.padByte_zero (by omega) (by omega)

/-- The last eight bytes: the length field (41_padder.md R126), for a length START accepts. -/
theorem State.map_padByte_lengthField (s : State) (hL : s.Lq.toNat < 2 ^ 61) :
    (List.range 8).map (fun k => s.padByte (padLen s.Lq.toNat - 8 + k)) = Reference.lengthField s.Lq.toNat := by
  refine List.map_congr_left fun k hk => BitVec.eq_of_toNat_eq ?_
  rw [s.padByte_length_toNat (List.mem_range.1 hk) hL, BitVec.toNat_ofNat]

/-- The padded bytes, cut at the ends of the four ranges. -/
theorem State.map_padByte_ranges (s : State) :
    (List.range (padLen s.Lq.toNat)).map s.padByte =
      (List.range s.Lq.toNat).map s.padByte ++ [s.padByte s.Lq.toNat] ++
        (List.range (Reference.zeroFill s.Lq.toNat)).map (fun k => s.padByte (s.Lq.toNat + 1 + k)) ++
        (List.range 8).map (fun k => s.padByte (padLen s.Lq.toNat - 8 + k)) := by
  have hN := zeroFill_eq s.Lq.toNat
  have start : padLen s.Lq.toNat - 8 = s.Lq.toNat + 1 + Reference.zeroFill s.Lq.toNat := by omega
  rw [start, ← hN, List.range_add, List.range_add, List.range_succ]
  simp only [List.map_append, List.map_map, List.map_singleton, Function.comp_def]

/-! ## The padding -/

/-- Settles O40: the four ranges spell the four parts of the reference padding; a length within MSG_CAP is below 2^61,
where the bit length does not wrap. -/
theorem padderComputesReferencePadding : Obligations.PadderComputesReferencePadding := by
  unfold Obligations.PadderComputesReferencePadding
  intro s msg held hL hfits
  have hcap := s.params.msgCap_le
  rw [Reference.pad, ← hL, s.map_padByte_ranges, State.map_padByte_message held hL, s.padByte_marker,
    s.map_padByte_zeroFill, s.map_padByte_lengthField (by omega)]

end Sys2Proof.Machine
end

section
/-! PROOFS of the family 42_scheduler.md: SCHED_LOAD (R144, R145) and SCHED_EXPAND (R142, R143, R146). -/

namespace Sys2Proof.Machine

/-! ## The padded words of a block (42_scheduler.md R144) -/

/-- A word wholly below Lq is the message word. -/
theorem State.padWord_message (s : State) {b t : Nat} (h : 64 * b + 4 * t + 3 < s.Lq.toNat) :
    s.padWord b t = s.msgWord (16 * b + t) := by
  refine word_ext_lane fun j => ?_
  rw [State.padWord_lane, State.msgWord_lane, s.padByte_message (by omega)]
  congr 1
  omega

/-- A lane of a word that is a slice of a double word. -/
theorem lane_extractLsb' (v : BitVec 64) (n : Nat) (j : Fin 4) :
    lane (v.extractLsb' n 32) j.val = v.extractLsb' (n + (24 - 8 * j.val)) 8 := by
  apply BitVec.eq_of_getLsbD_eq
  intro i hi
  simp [lane, hi, show 24 - 8 * j.val + i < 32 by omega, Nat.add_assoc]

/-- Words 14 and 15 of the last block are the two halves of BL, the high one first. -/
theorem State.padWord_bitLen (s : State) {b : Nat} (hb : b + 1 = blocksOf s.Lq.toNat) (k : Fin 2) :
    s.padWord b (14 + k.val) = (bitLen s.Lq.toNat).extractLsb' (32 - 32 * k.val) 32 := by
  have hN := padLen_eq s.Lq.toNat
  refine word_ext_lane fun j => ?_
  rw [State.padWord_lane, s.padByte_length (by omega) (by omega), lane_extractLsb' _ _ j]
  congr 1
  omega

/-- A double word from its two halves. -/
theorem halves_toNat (v : BitVec 64) :
    (v.extractLsb' 32 32).toNat * 2 ^ 32 + (v.extractLsb' 0 32).toNat = v.toNat := by
  simp only [BitVec.extractLsb'_toNat, Nat.shiftRight_eq_div_pow]
  omega

/-! ## SCHED_LOAD (42_scheduler.md R145) -/

theorem State.loadedSchedule_low (s : State) {i : Nat} (h : i < 16) :
    s.loadedSchedule[i] = s.padWord s.pc.blk i := by
  simp [State.loadedSchedule, h]

theorem State.loadedSchedule_high (s : State) {i : Nat} (h : 16 ≤ i) (h' : i < 64) :
    s.loadedSchedule[i] = s.W[i] := by
  simp [State.loadedSchedule, Nat.not_lt.2 h]

/-- SCHED_LOAD of a block whose bytes below Lq have been written. -/
theorem exec_engSchedLoad_of_written {s : State}
    (h : ∀ i, 64 * s.pc.blk ≤ i → i < 64 * s.pc.blk + 64 → i < s.Lq.toNat → s.mem.written i = true) :
    exec .engSchedLoad s = .next { s with W := s.loadedSchedule, pc := ⟨2#3, s.pc.blk, 16⟩ } := by
  rcases execEngSchedLoad_cases s with ⟨m, hm, -⟩ | ⟨-, e⟩
  · rw [(s.firstUnwritten_eq_none _).2 h] at hm
    cases hm
  · exact e

/-- Settles O42: the loaded words are the padded words, whose lanes are the padded bytes; below Lq these are the
message's, and the last eight of the last block are those of BL, which does not wrap below 2^61. -/
theorem schedLoadFillsFirstWords : Obligations.SchedLoadFillsFirstWords := by
  unfold Obligations.SchedLoadFillsFirstWords
  intro s written
  refine ⟨_, exec_engSchedLoad_of_written written, rfl, fun i hi j => ?lanes,
    fun i hi => s.loadedSchedule_high hi i.isLt, fun i hi hbelow => ?message, fun hcap hlast => ?bitLength⟩
  case lanes =>
    rw [s.loadedSchedule_low hi]
    exact s.padWord_lane s.pc.blk i.val j
  case message => rw [s.loadedSchedule_low hi, s.padWord_message hbelow]
  case bitLength =>
    have hmax := s.params.msgCap_le
    have high : s.loadedSchedule[14] = (bitLen s.Lq.toNat).extractLsb' 32 32 :=
      (s.loadedSchedule_low (by decide)).trans (s.padWord_bitLen hlast 0)
    have low : s.loadedSchedule[15] = (bitLen s.Lq.toNat).extractLsb' 0 32 :=
      (s.loadedSchedule_low (by decide)).trans (s.padWord_bitLen hlast 1)
    rw [high, low, halves_toNat, bitLen_toNat (by omega)]

/-! ## SCHED_EXPAND (42_scheduler.md R146) -/

/-- An operand at an index in [0, t) is an element of W. -/
theorem State.scheduleBack_of_le {s : State} {d : Nat} (h : d ≤ s.pc.t.val) :
    s.scheduleBack d = s.W[s.pc.t.val - d]'(by have := s.pc.t.isLt; omega) := if_pos h

/-- The pc after SCHED_EXPAND: t + 1 while t < 63, then ROUND_INIT. -/
theorem exec_engSchedExpand (s : State) : ∃ pc : Pc,
    exec .engSchedExpand s = .next { s with W := s.W.set s.pc.t.val s.expandedWord, pc := pc } ∧
      (s.pc.t.val < 63 → pc.phase = 2#3 ∧ pc.blk = s.pc.blk ∧ pc.t.val = s.pc.t.val + 1) ∧
      (s.pc.t.val = 63 → pc = ⟨3#3, s.pc.blk, 0⟩) := by
  rcases execEngSchedExpand_cases s with ⟨h, e⟩ | ⟨h, e⟩
  · exact ⟨_, e, fun _ => ⟨rfl, rfl, rfl⟩, fun h' => by omega⟩
  · exact ⟨_, e, fun h' => by omega, fun _ => rfl⟩

/-- Settles O44: word t is set and no other; for t >= 16 its four operands are elements of W, and the sigmas are
rotations. -/
theorem schedExpandDerivesNextWord : Obligations.SchedExpandDerivesNextWord := by
  unfold Obligations.SchedExpandDerivesNextWord
  intro s h w2 w7 w15 w16
  obtain ⟨pc, hexec, hnext, hlast⟩ := exec_engSchedExpand s
  refine ⟨_, hexec, rfl, ?derived, fun i hi => ?others, hnext, hlast⟩
  case derived =>
    rw [Vector.getElem_set_self, State.expandedWord, sigma1_eq_rotateRight, sigma0_eq_rotateRight,
      State.scheduleBack_of_le (d := 2) (by omega), State.scheduleBack_of_le (d := 7) (by omega),
      State.scheduleBack_of_le (d := 15) (by omega), State.scheduleBack_of_le h]
  case others => exact Vector.getElem_set_ne s.pc.t.isLt i.isLt fun e => hi (Fin.ext e.symm)

end Sys2Proof.Machine
end

section
/-! PROOFS of the family 43_compressor.md: Ch and Maj (R162, R163), ROUND_INIT (R166), ROUND (R167) and FOLD (R168). -/

namespace Sys2Proof.Machine

/-! ## Ch and Maj (43_compressor.md R162, R163) -/

/-- The exclusive-or of the three pairwise conjunctions is the majority: it counts one pair or all three. -/
theorem xor_pairs_eq_majority (a b c : Bool) :
    ((a && b) ^^ (a && c) ^^ (b && c)) = decide (2 ≤ a.toNat + b.toNat + c.toNat) := by
  revert a b c
  decide

theorem ch_getLsbD (x y z : Word) {i : Nat} (h : i < 32) :
    (ch x y z).getLsbD i = if x.getLsbD i then y.getLsbD i else z.getLsbD i := by
  rw [ch, BitVec.getLsbD_xor, BitVec.getLsbD_and, BitVec.getLsbD_and, BitVec.getLsbD_not]
  cases x.getLsbD i <;> simp [h]

theorem maj_getLsbD (x y z : Word) (i : Nat) :
    (maj x y z).getLsbD i = decide (2 ≤ (x.getLsbD i).toNat + (y.getLsbD i).toNat + (z.getLsbD i).toNat) := by
  rw [← xor_pairs_eq_majority]
  simp only [maj, BitVec.getLsbD_xor, BitVec.getLsbD_and]

/-- Settles O48: a bit of Ch or Maj is the same function of the three bits there. -/
theorem chSelectsAndMajVotes : Obligations.ChSelectsAndMajVotes := by
  unfold Obligations.ChSelectsAndMajVotes
  exact fun x y z i h => ⟨ch_getLsbD x y z h, maj_getLsbD x y z i⟩

/-! ## ROUND_INIT (43_compressor.md R166) -/

/-- Settles O45: the row is this update by definition. -/
theorem roundInitCopiesHash : Obligations.RoundInitCopiesHash := by
  unfold Obligations.RoundInitCopiesHash
  exact fun _ => rfl

/-! ## ROUND (43_compressor.md R167) -/

/-- The complement in Ch is the exclusive-or with ones. -/
theorem ch_eq_xor_ones (x y z : Word) : ch x y z = (x &&& y) ^^^ ((x ^^^ 0xFFFFFFFF#32) &&& z) := by
  rw [ch, ← BitVec.xor_allOnes]
  rfl

/-- The pc after ROUND: t + 1 while t < 63, then FOLD. -/
theorem exec_engRound (s : State) : ∃ pc : Pc,
    exec .engRound s = .next { s with work := s.work.round (K s.pc.t) s.W[s.pc.t.val], pc := pc } ∧
      (s.pc.t.val < 63 → pc.phase = 4#3 ∧ pc.blk = s.pc.blk ∧ pc.t.val = s.pc.t.val + 1) ∧
      (s.pc.t.val = 63 → pc = ⟨5#3, s.pc.blk, 0⟩) := by
  rcases execEngRound_cases s with ⟨h, e⟩ | ⟨h, e⟩
  · exact ⟨_, e, fun _ => ⟨rfl, rfl, rfl⟩, fun h' => by omega⟩
  · exact ⟨_, e, fun h' => by omega, fun _ => rfl⟩

/-- Settles O46: ROUND is the round of the model, whose two sums are T1 and T2 once its functions are written out. -/
theorem roundFollowsItsRule : Obligations.RoundFollowsItsRule := by
  unfold Obligations.RoundFollowsItsRule
  intro s v T1 T2
  obtain ⟨pc, hexec, hnext, hlast⟩ := exec_engRound s
  have hT1 : v.t1 (K s.pc.t) s.W[s.pc.t.val] = T1 := by
    rw [Work.t1, bigSigma1_eq_rotateRight, ch_eq_xor_ones, K_eq_getD]
  have hT2 : v.t2 = T2 := by rw [Work.t2, bigSigma0_eq_rotateRight, maj]
  refine ⟨_, hexec, ?_, hnext, hlast⟩
  rw [Work.round, hT1, hT2]

/-! ## FOLD (43_compressor.md R168) -/

/-- Each of the eight sums wraps on its own. -/
theorem folded_getElem_toNat (H : Vector Word 8) (v : Work) (k : Fin 8) :
    (folded H v)[k.val].toNat =
      (H[k.val].toNat + ([v.a, v.b, v.c, v.d, v.e, v.f, v.g, v.h].getD k.val 0).toNat) % 2 ^ 32 := by
  rw [← BitVec.toNat_add]
  fin_cases k <;> rfl

/-- Settles O47: both outcomes of FOLD hold the eight sums, and blk + 1 < NB chooses between them. -/
theorem foldAddsWorkIntoHash : Obligations.FoldAddsWorkIntoHash := by
  unfold Obligations.FoldAddsWorkIntoHash
  intro s
  rcases execEngFold_cases s with ⟨h, e⟩ | ⟨h, e⟩
  · exact ⟨_, e, rfl, folded_getElem_toNat s.H s.work, fun _ => ⟨rfl, rfl⟩, fun h' => by omega⟩
  · exact ⟨_, e, rfl, folded_getElem_toNat s.H s.work, fun h' => by omega, fun _ => ⟨rfl, rfl⟩⟩

end Sys2Proof.Machine
end

section
/-! PROOFS of the family 44_serializer.md: the views of H are gated by DONE (R195). -/

namespace Sys2Proof.Machine

/-! ## The gate (44_serializer.md R195) -/

theorem State.digestView_of_not_done {s : State} (h : s.status.done = false) (k : Fin 8) :
    s.digestView k = 0x00000000#32 :=
  if_neg (Bool.eq_false_iff.1 h)

theorem State.hexView_of_not_done {s : State} (h : s.status.done = false) (j : Fin 16) :
    s.hexView j = 0x00000000#32 :=
  if_neg (Bool.eq_false_iff.1 h)

theorem exec_rdDigest (k : Fin 8) (s : State) : exec (.rdDigest k) s = .next (s.reply (s.digestView k)) := rfl

theorem exec_rdHex (j : Fin 16) (s : State) : exec (.rdHex j) s = .next (s.reply (s.hexView j)) := rfl

theorem exec_rdDigest_of_not_done {s : State} (h : s.status.done = false) (k : Fin 8) :
    exec (.rdDigest k) s = .next { s with rdata := 0x00000000#32 } := by
  rw [exec_rdDigest, State.digestView_of_not_done h, State.reply]

theorem exec_rdHex_of_not_done {s : State} (h : s.status.done = false) (j : Fin 16) :
    exec (.rdHex j) s = .next { s with rdata := 0x00000000#32 } := by
  rw [exec_rdHex, State.hexView_of_not_done h, State.reply]

/-! ## When the gate is shut -/

/-- A recorded error excludes DONE = 1 (10_state.md R38). -/
theorem State.Inv.not_done_of_err {s : State} (hinv : s.Inv) (herr : s.status.err = true) : s.status.done = false :=
  Bool.eq_false_iff.2 fun hdone => by simp [hinv.done_clear hdone] at herr

/-- Settles O37: the gate answers 0 for either view; BUSY = 1 and ERR = 1 each exclude DONE = 1 by the invariant, and
reset clears DONE. -/
theorem noPartialResults : Obligations.NoPartialResults := by
  unfold Obligations.NoPartialResults
  refine ⟨fun s h => ⟨exec_rdDigest_of_not_done h, exec_rdHex_of_not_done h⟩, fun s hinv h => ?shut, fun _ => rfl⟩
  case shut =>
    rcases h with hbusy | herr
    · exact (hinv.busy_clear hbusy).1
    · exact hinv.not_done_of_err herr

end Sys2Proof.Machine
end

section
/-! PROOFS of the family 45_sequencer.md: the engine's operation is its phase's exactly while BUSY = 1 (R210). -/

namespace Sys2Proof.Machine

/-! ## The engine's operation (45_sequencer.md R210) -/

theorem decode_engineCode_of_busy {s : State} (h : s.status.busy = true) :
    decode s.params s.engineCode = decodePhase s.pc.phase := by
  rw [State.engineCode, if_pos h, decode]

theorem decode_engineCode_of_idle {s : State} (h : s.status.busy = false) :
    decode s.params s.engineCode = .engIdle := by
  rw [State.engineCode, if_neg (Bool.eq_false_iff.1 h), decode, decodePhase, if_pos rfl]

theorem exec_engIdle (s : State) : exec .engIdle s = .next s := rfl

/-- BUSY = 0 leaves the phase register IDLE. -/
theorem State.Inv.phase_idle_of_idle {s : State} (hinv : s.Inv) (h : s.status.busy = false) : s.pc.phase = 0#3 :=
  of_not_not fun hphase => Bool.eq_false_iff.1 h (hinv.busy_phase.2 hphase)

/-- Settles O10: BUSY chooses between the operation of the phase and ENG_IDLE, which changes nothing; the invariant
ties BUSY to the phase. -/
theorem engineStepsExactlyWhileBusy : Obligations.EngineStepsExactlyWhileBusy := by
  unfold Obligations.EngineStepsExactlyWhileBusy
  refine ⟨fun s => ⟨fun hbusy => ?busy, fun hidle => ?idle⟩, ?phases, fun s hinv => ?invariant⟩
  case busy => rw [decode_engineCode_of_busy hbusy]
  case idle => rw [decode_engineCode_of_idle hidle, exec_engIdle]
  case phases => decide
  case invariant => exact ⟨hinv.busy_phase.1, hinv.phase_idle_of_idle⟩

end Sys2Proof.Machine
end

section
/-! PROOFS of the family 46_host_interface.md: what every transaction keeps (R230), START (R233), the register file
(R231 to R242), the digest window (R243) and the message window (R247, R248). -/

namespace Sys2Proof.Machine

/-! ## Any transaction (46_host_interface.md R230) -/

/-- START writes neither MSG_CAP nor the events still to come. -/
theorem execCtrlStart_frame {hi : BitVec 28} {s u : State} (h : execCtrlStart hi s = .next u) :
    u.params = s.params ∧ u.events = s.events := by
  rcases execCtrlStart_cases hi s with ⟨-, e⟩ | ⟨-, -, e⟩ | ⟨-, -, -, e⟩ | ⟨-, -, e⟩
  all_goals
    rw [e] at h
    cases h
    exact ⟨rfl, rfl⟩

/-- A host row answers a next state with the same MSG_CAP and the same events still to come. -/
theorem exec_host_frame {i : Instr} (s : State) (h : i.isHost = true) :
    ∃ u, exec i s = .next u ∧ u.params = s.params ∧ u.events = s.events := by
  obtain ⟨u, hexec, rfl | ⟨w, rfl⟩ | ⟨-, w, -, rfl⟩ | ⟨-, w, -, rfl⟩ | ⟨-, m, w, -, rfl⟩ | ⟨-, hi, -, hstart⟩⟩ :=
    exec_host_cases s h
  case inr.inr.inr.inr.inr => exact ⟨u, hexec, execCtrlStart_frame hstart⟩
  all_goals exact ⟨_, hexec, rfl, rfl⟩

/-- A read row writes `rdata` only (20_memory.md R72). -/
theorem exec_read_frame {i : Instr} {s u : State} (hread : i.isRead = true) (h : exec i s = .next u) :
    u = { s with rdata := u.rdata } := by
  obtain ⟨view, hexec, -⟩ := exec_read_replies hread
  rw [hexec] at h
  cases h
  rfl

/-- Settles O18: a transaction decodes to a host row, which always answers a next state, and a read transaction to a
read row. -/
theorem transactionsNeverFault : Obligations.TransactionsNeverFault := by
  unfold Obligations.TransactionsNeverFault
  intro s t
  obtain ⟨u, hexec, hparams, hevents⟩ := exec_host_frame s (decodeTransaction_isHost s.params t)
  refine ⟨u, hexec, hparams, hevents, fun hrd => exec_read_frame ?_ hexec⟩
  rw [decodeTransaction_isRead, decide_eq_true hrd]

/-! ## START (46_host_interface.md R233, 70_reset_and_hazards.md R317) -/

theorem exec_ctrlStart_of_busy {s : State} (h : s.status.busy = true) (hi : BitVec 28) :
    exec (.ctrlStart hi) s = .next s := if_pos h

/-- START while BUSY = 0: the length chooses between the two errors and a new computation. -/
theorem exec_ctrlStart_of_idle {s : State} (h : s.status.busy = false) (hi : BitVec 28) :
    exec (.ctrlStart hi) s = .next (
      if 2 ^ 61 ≤ s.length.toNat then { s with status := ⟨false, false, true, 0x1#4⟩ }
      else if s.params.msgCap < s.length.toNat then { s with status := ⟨false, false, true, 0x2#4⟩ }
      else { s with
        Lq := s.length, NB := blocksOf s.length.toNat, H := IV, pc := ⟨1#3, 0, 0⟩,
        status := ⟨true, false, false, 0#4⟩ }) := by
  have hcap := s.params.msgCap_le
  rw [exec]
  rcases execCtrlStart_cases hi s with ⟨hbusy, -⟩ | ⟨-, hover, e⟩ | ⟨-, hfits, hlong, e⟩ | ⟨-, hok, e⟩
  · exact absurd hbusy (Bool.eq_false_iff.1 h)
  · rw [e, if_pos hover]
  · rw [e, if_neg (Nat.not_le.2 hfits), if_pos hlong]
  · rw [e, if_neg (by omega), if_neg (Nat.not_lt.2 hok)]

/-- Settles O19: BUSY = 1 discards START; otherwise the three ranges of L pick the three branches, MSG_CAP being
below 2^61. -/
theorem startFollowsItsRule : Obligations.StartFollowsItsRule := by
  unfold Obligations.StartFollowsItsRule
  intro s hi L
  have hL : s.length.toNat = L := s.length_toNat
  have hcap := s.params.msgCap_le
  refine ⟨fun hbusy => exec_ctrlStart_of_busy hbusy hi, fun hidle hover => ?overflow,
    fun hidle hfits hlong => ?capacity, fun hidle hok => ?accepted⟩
  case overflow => rw [exec_ctrlStart_of_idle hidle, hL, if_pos hover]
  case capacity => rw [exec_ctrlStart_of_idle hidle, hL, if_neg (by omega), if_pos hlong]
  case accepted =>
    have hLq : BitVec.ofNat 64 L = s.length := by rw [← hL, BitVec.ofNat_toNat, BitVec.setWidth_eq]
    rw [exec_ctrlStart_of_idle hidle, hL, if_neg (by omega), if_neg (by omega), hLq, blocksOf]

/-! ## The message window (46_host_interface.md R247, R248) -/

/-- A stored word read back byte by byte: lane j at offset j (20_memory.md R63). -/
theorem Memory.get?_setWord_lane (m : Memory) (a : Nat) (w : Word) (j : Fin 4) :
    (m.setWord a w).get? (a + j.val) = some (lane w j.val) := by
  rw [Memory.get?_setWord, if_pos (by omega), Nat.add_sub_cancel_left]

theorem Memory.get?_setWord_of_outside (m : Memory) {a b : Nat} (w : Word) (h : b < a ∨ a + 4 ≤ b) :
    (m.setWord a w).get? b = m.get? b := by
  rw [Memory.get?_setWord, if_neg (by omega)]

/-- Settles O31: WR_MSG is MemWrite at 4m, which stores the four lanes while BUSY = 0 and nothing while BUSY = 1. -/
theorem messageWriteStoresOneWord : Obligations.MessageWriteStoresOneWord := by
  unfold Obligations.MessageWriteStoresOneWord
  intro s m w
  cases hbusy : s.status.busy with
  | true => exact ⟨s, by simp [exec_wrMsg, hbusy], rfl, fun _ => rfl, nofun⟩
  | false =>
    refine ⟨{ s with mem := s.mem.setWord (4 * m.toNat) w }, by simp [exec_wrMsg, hbusy], rfl, nofun, fun _ => ?bytes⟩
    case bytes =>
      have stored := s.mem.get?_setWord_lane (4 * m.toNat) w
      exact ⟨stored 0, stored 1, stored 2, stored 3, fun a ha => s.mem.get?_setWord_of_outside w ha⟩

theorem exec_rdMsg (m : BitVec 29) (s : State) : exec (.rdMsg m) s = .next (s.reply (s.msgWord m.toNat)) := rfl

/-- A written byte is the one the buffer answers. -/
theorem State.msgByte_of_get? {s : State} {a : Nat} {b : Byte} (h : s.mem.get? a = some b) : s.msgByte a = b := by
  rw [State.msgByte, h, Option.getD_some]

/-- Settles O32: the lanes of the returned word are the message's bytes, and the four just written spell the word. -/
theorem messageReadReturnsStoredWord : Obligations.MessageReadReturnsStoredWord := by
  unfold Obligations.MessageReadReturnsStoredWord
  refine ⟨fun s m => ⟨_, exec_rdMsg m s, rfl, fun j b hb => ?lanes⟩, fun s t m w hidle hwrite => ?readBack⟩
  case lanes => exact (s.msgWord_lane m.toNat j).trans (State.msgByte_of_get? hb)
  case readBack =>
    rw [exec_wrMsg, if_neg (Bool.eq_false_iff.1 hidle)] at hwrite
    cases hwrite
    rw [exec_rdMsg, State.msgWord_setWord, State.reply]

/-! ## The register file (46_host_interface.md sections 1, 2 and 5) -/

/-- Settles O25: each of these rows is skip by definition. -/
theorem transactionsWithoutEffect : Obligations.TransactionsWithoutEffect := by
  unfold Obligations.TransactionsWithoutEffect
  exact fun _ => ⟨fun _ => rfl, fun _ _ => rfl, fun _ => rfl, fun _ => rfl, fun _ _ => rfl, fun _ _ => rfl,
    fun _ _ => rfl⟩

/-- Settles O27: each of these rows is a reply of its word by definition. -/
theorem registerReadsReturnTheirWord : Obligations.RegisterReadsReturnTheirWord := by
  unfold Obligations.RegisterReadsReturnTheirWord
  exact fun _ => ⟨rfl, rfl, rfl, rfl, fun _ => rfl⟩

/-- Settles O30: the two storing writes by their equations. -/
theorem lengthWritesStoreOnlyWhileIdle : Obligations.LengthWritesStoreOnlyWhileIdle := by
  unfold Obligations.LengthWritesStoreOnlyWhileIdle
  refine fun s w => ⟨fun hidle => ?idle, fun hbusy => ?busy⟩
  case idle => simp [exec_wrLenLo, exec_wrLenHi, hidle]
  case busy => simp [exec_wrLenLo, exec_wrLenHi, hbusy]

theorem exec_rdStatus (s : State) : exec .rdStatus s = .next (s.reply s.status.word) := rfl

theorem flagBit_getLsbD_zero (b : Bool) : (flagBit b).getLsbD 0 = b := by cases b <;> rfl

/-- The bits of the STATUS word, from the fields it joins (30_encoding.md R95). -/
theorem Status.word_getLsbD (f : Status) {i : Nat} (h : i < 32) :
    f.word.getLsbD i =
      if i = 0 then f.busy else if i = 1 then f.done else if i = 2 then f.err else if i = 3 then false
      else f.errcode.getLsbD (i - 4) := by
  rw [Status.word, BitVec.getLsbD_setWidth, decide_eq_true h, Bool.true_and]
  iterate 4 rw [BitVec.getLsbD_append]
  match i with
  | 0 => exact flagBit_getLsbD_zero f.busy
  | 1 => exact flagBit_getLsbD_zero f.done
  | 2 => exact flagBit_getLsbD_zero f.err
  | 3 => rfl
  | i + 4 => simp

/-- Bits 7 to 4 of the STATUS word are the error code (30_encoding.md R95). -/
theorem Status.word_errcode (f : Status) : f.word.extractLsb' 4 4 = f.errcode := by
  apply BitVec.eq_of_getLsbD_eq
  intro i hi
  rw [BitVec.getLsbD_extractLsb', f.word_getLsbD (by omega), Nat.add_comm 4 i]
  simp [hi]

/-- Bits 31 to 8 of the STATUS word are 0 (10_state.md R37). -/
theorem Status.word_reserved (f : Status) : f.word.extractLsb' 8 24 = 0#24 := by
  apply BitVec.eq_of_getLsbD_eq
  intro i _
  simp [Status.word]

/-- Settles O28: the returned word is the STATUS word, field by field. -/
theorem statusReadsItsFields : Obligations.StatusReadsItsFields := by
  unfold Obligations.StatusReadsItsFields
  intro s
  have bit {i : Nat} := s.status.word_getLsbD (i := i)
  exact ⟨_, exec_rdStatus s, rfl, bit (by decide), bit (by decide), bit (by decide), bit (by decide),
    s.status.word_errcode, s.status.word_reserved⟩

/-! ## The digest window (46_host_interface.md R243, 44_serializer.md R191) -/

theorem State.digestView_of_done {s : State} (h : s.status.done = true) (k : Fin 8) : s.digestView k = s.H[k.val] :=
  if_pos h

/-- Digest byte 4k + j is lane j of H[k] (44_serializer.md R190). -/
theorem digestByte_eq_lane (H : Vector Word 8) (k : Fin 8) (j : Fin 4) :
    digestByte H ⟨4 * k.val + j.val, by omega⟩ = lane H[k.val] j.val := by
  simp only [digestByte, show (4 * k.val + j.val) / 4 = k.val by omega, show (4 * k.val + j.val) % 4 = j.val by omega]

/-- Settles O34: the view is H[k] behind the gate of DONE, and the lanes of H[k] are digest bytes 4k to 4k + 3. -/
theorem digestReadsHashWord : Obligations.DigestReadsHashWord := by
  unfold Obligations.DigestReadsHashWord
  refine fun s k => ⟨fun hdone => ⟨?view, fun j => ?bytes⟩, fun hclear => exec_rdDigest_of_not_done hclear k⟩
  case view => rw [exec_rdDigest, State.digestView_of_done hdone, State.reply]
  case bytes => exact (digestByte_eq_lane s.H k j).symm

end Sys2Proof.Machine
end

section
/-! PROOFS of the family 60_exceptions.md: the two errors of START (R281, R282), the record of an error (R283) and the
order of the two checks (R284). -/

namespace Sys2Proof

/-! ## The two limits on L (60_exceptions.md R281, R282) -/

/-- A length that overflows exceeds the capacity too, so the order of the checks matters (60_exceptions.md R284). -/
theorem Params.msgCap_lt_of_overflow (p : Params) {L : Nat} (h : 2 ^ 61 ≤ L) : p.msgCap < L := by
  have := p.msgCap_le
  omega

/-- The top three bits of LEN_HI hold the multiples of 2^61 in L (60_exceptions.md R281). -/
theorem overflow_iff_topBits_ne_zero (lenHi lenLo : Word) :
    2 ^ 61 ≤ lenHi.toNat * 2 ^ 32 + lenLo.toNat ↔ lenHi.extractLsb' 29 3 ≠ 0#3 := by
  have hlo := lenLo.isLt
  have hhi := lenHi.isLt
  have top : (lenHi.extractLsb' 29 3).toNat = lenHi.toNat / 2 ^ 29 % 2 ^ 3 := by
    rw [BitVec.extractLsb'_toNat, Nat.shiftRight_eq_div_pow]
  rw [← BitVec.toNat_ne_iff_ne, top, BitVec.toNat_ofNat]
  omega

end Sys2Proof

namespace Sys2Proof.Machine

/-! ## The record of an error (60_exceptions.md R283, R284) -/

/-- START while BUSY = 0 with a length above the capacity records an error, overflow first, and changes STATUS only. -/
theorem exec_ctrlStart_of_tooLong {s : State} (hidle : s.status.busy = false)
    (hlong : s.params.msgCap < s.length.toNat) (hi : BitVec 28) :
    exec (.ctrlStart hi) s = .next { s with
      status := ⟨false, false, true, if 2 ^ 61 ≤ s.length.toNat then 0x1#4 else 0x2#4⟩ } := by
  rw [exec_ctrlStart_of_idle hidle, if_pos hlong]
  split <;> rfl

/-- Settles O22: the recorded STATUS has its four fields by the equation of a START that fails, and DONE = 0 shuts both
result views. -/
theorem errorRecordsOnlyStatus : Obligations.ErrorRecordsOnlyStatus := by
  unfold Obligations.ErrorRecordsOnlyStatus
  intro s hi hidle L
  have hL : s.length.toNat = L := s.length_toNat
  refine ⟨s.params.msgCap_lt_of_overflow, fun hlong => ?recorded⟩
  case recorded =>
    have hexec := exec_ctrlStart_of_tooLong hidle (hL ▸ hlong) hi
    rw [hL] at hexec
    exact ⟨_, hexec, rfl, rfl, rfl, rfl, rfl, exec_rdDigest_of_not_done rfl, exec_rdHex_of_not_done rfl⟩

/-! ## Who raises an error (60_exceptions.md R281, R282) -/

/-- ERR and ERRCODE change by a START while BUSY = 0 only: no other host row writes STATUS, and of the engine's
operations the last FOLD does, which writes BUSY and DONE. -/
theorem exec_errorFlags_cases {i : Instr} {s t : State} (h : exec i s = .next t) :
    (t.status.err = s.status.err ∧ t.status.errcode = s.status.errcode) ∨
    (s.status.busy = false ∧ ∃ hi, i = .ctrlStart hi) := by
  cases hhost : i.isHost with
  | true =>
    obtain ⟨u, hexec, hcases⟩ := exec_host_cases s hhost
    rw [h] at hexec
    cases hexec
    rcases hcases with rfl | ⟨w, rfl⟩ | ⟨-, w, -, rfl⟩ | ⟨-, w, -, rfl⟩ | ⟨-, m, w, -, rfl⟩ | ⟨hidle, hi, rfl, -⟩
    case inr.inr.inr.inr.inr => exact .inr ⟨hidle, hi, rfl⟩
    all_goals exact .inl ⟨rfl, rfl⟩
  | false =>
    rcases exec_engine_cases hhost h with ⟨rfl, -⟩ | ⟨-, -, rfl⟩ | ⟨-, pc, rfl, -⟩ | ⟨-, rfl⟩ | ⟨-, pc, rfl, -⟩ |
      ⟨-, ⟨-, rfl⟩ | ⟨-, rfl⟩⟩
    all_goals exact .inl ⟨rfl, rfl⟩

/-- The error code that START leaves while BUSY = 0, by the length. -/
theorem exec_ctrlStart_errcode {s t : State} {hi : BitVec 28} (hidle : s.status.busy = false)
    (h : exec (.ctrlStart hi) s = .next t) :
    t.status.errcode = if 2 ^ 61 ≤ s.length.toNat then 0x1#4
      else if s.params.msgCap < s.length.toNat then 0x2#4 else 0x0#4 := by
  rw [exec_ctrlStart_of_idle hidle] at h
  cases h
  split
  · rfl
  · split <;> rfl

/-- An instruction that changes the error code is a START while BUSY = 0, and the length decides the new code. -/
theorem exec_errcode_of_ne {i : Instr} {s t : State} (h : exec i s = .next t)
    (hne : s.status.errcode ≠ t.status.errcode) : ∃ hi, i = .ctrlStart hi ∧ s.status.busy = false ∧
      t.status.errcode = if 2 ^ 61 ≤ s.length.toNat then 0x1#4
        else if s.params.msgCap < s.length.toNat then 0x2#4 else 0x0#4 := by
  rcases exec_errorFlags_cases h with ⟨-, hsame⟩ | ⟨hidle, hi, rfl⟩
  · exact absurd hsame.symm hne
  · exact ⟨hi, rfl, hidle, exec_ctrlStart_errcode hidle h⟩

/-- RD_STATUS in a state whose STATUS word is known. -/
theorem exec_rdStatus_of_word {s : State} {w : Word} (h : s.status.word = w) :
    exec .rdStatus s = .next { s with rdata := w } := by
  rw [exec_rdStatus, h, State.reply]

/-- Settles O20: START's rule gives the recorded STATUS; the code 1 is raised by a START whose length overflows. -/
theorem lengthOverflowIsReported : Obligations.LengthOverflowIsReported := by
  unfold Obligations.LengthOverflowIsReported
  refine ⟨fun s hi hidle hover => ?reported, fun s => overflow_iff_topBits_ne_zero s.lenHi s.lenLo,
    fun i s t h hcode hbefore => ?raisedByStart⟩
  case reported =>
    obtain ⟨-, hoverflow, -, -⟩ := startFollowsItsRule s hi
    have word : Status.word ⟨false, false, true, 0x1#4⟩ = 0x00000014#32 := by decide
    exact ⟨_, hoverflow hidle hover, exec_rdStatus_of_word word, rfl⟩
  case raisedByStart =>
    obtain ⟨hi, rfl, hidle, hnew⟩ := exec_errcode_of_ne h (hcode ▸ hbefore)
    refine ⟨hi, rfl, hidle, ?_⟩
    rw [← s.length_toNat]
    rw [hcode] at hnew
    split at hnew
    next hover => exact hover
    next => split at hnew <;> cases hnew

/-- Settles O21: START's rule gives the recorded STATUS and, at MSG_CAP, the accepted one; the code 2 is raised by a
START whose length lies between the two limits. -/
theorem lengthCapacityIsReported : Obligations.LengthCapacityIsReported := by
  unfold Obligations.LengthCapacityIsReported
  refine ⟨fun s hi hidle hlong hfits => ?reported, fun s hi hidle hfull => ?accepted,
    fun i s t h hcode hbefore => ?raisedByStart⟩
  case reported =>
    obtain ⟨-, -, hcapacity, -⟩ := startFollowsItsRule s hi
    have word : Status.word ⟨false, false, true, 0x2#4⟩ = 0x00000024#32 := by decide
    exact ⟨_, hcapacity hidle hfits hlong, exec_rdStatus_of_word word, rfl⟩
  case accepted =>
    obtain ⟨-, -, -, haccepted⟩ := startFollowsItsRule s hi
    have word : Status.word ⟨true, false, false, 0x0#4⟩ = 0x00000001#32 := by decide
    exact ⟨_, haccepted hidle hfull.le, exec_rdStatus_of_word word⟩
  case raisedByStart =>
    obtain ⟨hi, rfl, hidle, hnew⟩ := exec_errcode_of_ne h (hcode ▸ hbefore)
    refine ⟨hi, rfl, hidle, ?_⟩
    rw [← s.length_toNat]
    rw [hcode] at hnew
    split at hnew
    next => cases hnew
    next hfits =>
      split at hnew
      next hlong => exact ⟨hlong, Nat.lt_of_not_le hfits⟩
      next => cases hnew

end Sys2Proof.Machine
end

section
/-! PROOFS of the family 70_reset_and_hazards.md: the values that reset sets (R310). -/

namespace Sys2Proof.Machine

/-! ## The elements that R310 fixes, at power-up -/

@[simp] theorem State.resetWith_pc (p : Params) : (State.resetWith p).pc = ⟨0#3, 0, 0⟩ := rfl
@[simp] theorem State.resetWith_status (p : Params) : (State.resetWith p).status = ⟨false, false, false, 0#4⟩ := rfl
@[simp] theorem State.resetWith_lenLo (p : Params) : (State.resetWith p).lenLo = 0#32 := rfl
@[simp] theorem State.resetWith_lenHi (p : Params) : (State.resetWith p).lenHi = 0#32 := rfl
@[simp] theorem State.resetWith_mem (p : Params) : (State.resetWith p).mem = [] := rfl

/-- No byte of the empty buffer has been written (70_reset_and_hazards.md R319). -/
@[simp] theorem Memory.written_nil (a : Nat) : Memory.written [] a = false := rfl

/-- Settles O11: the fields after a reset event and at power-up are the reset values by their equations, and the buffer
is empty, so that no byte of it is written. -/
theorem resetEventSetsResetValues : Obligations.ResetEventSetsResetValues := by
  unfold Obligations.ResetEventSetsResetValues
  refine ⟨fun s => ?resetEvent, fun p => ?powerUp⟩
  case resetEvent =>
    simp only [State.applyReset_pc, State.applyReset_status, State.applyReset_lenLo, State.applyReset_lenHi,
      State.applyReset_mem, State.applyReset_params, Memory.written_nil, implies_true, and_self]
  case powerUp =>
    simp only [State.resetWith_pc, State.resetWith_status, State.resetWith_lenLo, State.resetWith_lenHi,
      State.resetWith_mem, Memory.written_nil, implies_true, and_self]

end Sys2Proof.Machine
end

section
/-! PROOFS of the family other, encoding: decode and encode invert each other, decoded operations are well formed, and
misaligned offsets alias (30_encoding.md sections 1 and 2, 20_memory.md sections 3 and 4). -/

namespace Sys2Proof

/-! ## Decoding an encoding -/

/-- A read code decodes to the read row of its offset. -/
theorem decode_read (p : Params) (off : BitVec 32) : decode p (.read off) = readRow (region p off) :=
  decodeTransaction_rd p off 0#32

/-- A write code decodes to the write row of its offset. -/
theorem decode_write (p : Params) (off : BitVec 32) (w : Word) :
    decode p (.write off w) = writeRow w (region p off) :=
  decodeTransaction_wr p off w

/-- A command word from its two fields (30_encoding.md R93, R94). -/
theorem decodeCommand_append (hi : BitVec 28) (cmd : BitVec 4) :
    decodeCommand (hi ++ cmd : BitVec 32) =
      if cmd = 0x0#4 then .ctrlNop hi else if cmd = 0x1#4 then .ctrlStart hi else .ctrlRsvd cmd hi := by
  rw [decodeCommand, commandWord_low, commandWord_high]

/-- A write of a command word to CTRL decodes to the command. -/
theorem decode_writeCommand (p : Params) (hi : BitVec 28) (cmd : BitVec 4) :
    decode p (.write 0x000#32 (hi ++ cmd : BitVec 32)) = decodeCommand (hi ++ cmd : BitVec 32) :=
  decode_write p _ _

/-- The encoder's phase of a reserved operation is a reserved phase with the operand in bit 0. -/
theorem decodePhase_reserved (low : BitVec 1) : decodePhase (0b11#2 ++ low : BitVec 3) = .engRsvd low := by
  revert low; decide

/-! ## Encoding a decoded operation -/

/-- The encoder's offset of a region (20_memory.md R73). -/
def Region.offset : Region → BitVec 32
  | .ctrl => 0x000#32
  | .status => 0x004#32
  | .lenLo => 0x008#32
  | .lenHi => 0x00C#32
  | .capacity => 0x010#32
  | .digest k => digestOffset k
  | .hex j => hexOffset j
  | .msg m => msgOffset m
  | .reserved word => wordOffset word

theorem encode_readRow (r : Region) : encode (readRow r) = .read r.offset := by cases r <;> rfl

/-- A command encodes to the word it was decoded from. -/
theorem encode_decodeCommand (w : Word) : encode (decodeCommand w) = .write 0x000#32 w := by
  have fields : (w.extractLsb' 4 28 ++ w.extractLsb' 0 4 : BitVec 32) = w :=
    BitVec.extractLsb'_append_extractLsb' (w := 28) (len := 4)
  rw [decodeCommand]
  split
  next h => rw [encode, ← h, fields]
  next =>
    split
    next h => rw [encode, ← h, fields]
    next => rw [encode, fields]

theorem encode_writeRow (w : Word) (r : Region) : encode (writeRow w r) = .write r.offset w := by
  cases r with
  | ctrl => exact encode_decodeCommand w
  | _ => rfl

/-- A region's offset is the first offset of the word that names it (20_memory.md R69, R73). -/
theorem offset_region (p : Params) (o : BitVec 32) : (region p o).offset = o &&& 0xFFFFFFFC#32 := by
  have hlt := o.isLt
  have hcap := p.msgCap_le
  apply BitVec.eq_of_toNat_eq
  rw [toNat_and_clear o 2 (by decide) _ (by decide), region_eq_ranges]
  have digest : (digestOffset (o.extractLsb' 2 3).toFin).toNat = 64 + 4 * (o.toNat / 4 % 8) := by
    rw [digestOffset_toNat]
    exact congrArg (64 + 4 * ·) (offsetField_toNat o 3)
  have hex : (hexOffset (o.extractLsb' 2 4).toFin).toNat = 128 + 4 * (o.toNat / 4 % 16) := by
    rw [hexOffset_toNat]
    exact congrArg (128 + 4 * ·) (offsetField_toNat o 4)
  repeat' split
  all_goals
    simp only [Region.offset, digest, hex, msgOffset_toNat, wordOffset_toNat, offsetField_toNat, BitVec.toNat_ofNat]
    omega

/-! ## Well-formedness of a decoded operation -/

theorem decodeCommand_wf (p : Params) (w : Word) : (decodeCommand w).wf p = true := by
  rw [decodeCommand]
  split
  · rfl
  next h0 =>
    split
    · rfl
    next h1 =>
      rw [← BitVec.toNat_inj, BitVec.toNat_ofNat] at h0 h1
      exact decide_eq_true (by omega)

/-- At any region but CTRL the write row has the operands of the read row. -/
theorem writeRow_region_wf (p : Params) (w : Word) (o : BitVec 32) : (writeRow w (region p o)).wf p = true := by
  have hread := (region_wf p o).1
  generalize region p o = r at hread
  cases r with
  | ctrl => exact decodeCommand_wf p w
  | _ => exact hread

theorem decodePhase_wf (p : Params) (ph : BitVec 3) : (decodePhase ph).wf p = true := by
  rcases Machine.decodePhase_cases ph with ⟨-, h⟩ | ⟨-, h⟩ | ⟨-, h⟩ | ⟨-, h⟩ | ⟨-, h⟩ | ⟨-, h⟩ | ⟨-, l, h⟩
  all_goals rw [h]; rfl

end Sys2Proof

namespace Sys2Proof.Machine

/-- Settles O1: the encoder's offset of a row lies in the row's region, a command word has its two fields, and each
phase selects its operation. -/
theorem decodeInvertsEncode : Obligations.DecodeInvertsEncode := by
  unfold Obligations.DecodeInvertsEncode
  intro p i hwf
  cases i with
  | ctrlNop hi => exact (decode_writeCommand p hi 0x0#4).trans (decodeCommand_append hi 0x0#4)
  | ctrlStart hi => exact (decode_writeCommand p hi 0x1#4).trans (decodeCommand_append hi 0x1#4)
  | ctrlRsvd cmd hi =>
    have hcmd : 2 ≤ cmd.toNat := of_decide_eq_true hwf
    rw [encode, decode_writeCommand, decodeCommand_append, if_neg (by rintro rfl; cases hcmd),
      if_neg (by rintro rfl; exact absurd hcmd (by decide))]
  | rdDigest k => rw [encode, decode_read, region_digestOffset, readRow]
  | wrDigest k w => rw [encode, decode_write, region_digestOffset, writeRow]
  | rdHex j => rw [encode, decode_read, region_hexOffset, readRow]
  | wrHex j w => rw [encode, decode_write, region_hexOffset, writeRow]
  | rdMsg m => rw [encode, decode_read, region_msgOffset (of_decide_eq_true hwf), readRow]
  | wrMsg m w => rw [encode, decode_write, region_msgOffset (of_decide_eq_true hwf), writeRow]
  | rdRsvd word => rw [encode, decode_read, region_wordOffset hwf, readRow]
  | wrRsvd word w => rw [encode, decode_write, region_wordOffset hwf, writeRow]
  | wrStatus w => exact decode_write p _ w
  | wrLenLo w => exact decode_write p _ w
  | wrLenHi w => exact decode_write p _ w
  | wrCapacity w => exact decode_write p _ w
  | engRsvd low => exact decodePhase_reserved low
  | _ => rfl

/-- Settles O2: a row encodes to the offset of its region, which is the offset with bits [1:0] cleared, and each phase
is the phase of its operation. -/
theorem encodeInvertsDecode : Obligations.EncodeInvertsDecode := by
  unfold Obligations.EncodeInvertsDecode
  refine ⟨fun p off w => ⟨?read, ?write⟩, fun p ph => ?phase⟩
  case read => rw [decode, decodeTransaction_rd, encode_readRow, offset_region, Code.read]
  case write => rw [decode, decodeTransaction_wr, encode_writeRow, offset_region, Code.write]
  case phase =>
    rw [decode]
    clear p
    revert ph
    decide

/-- Settles O3: the operands of a region are in range, a command that is neither 0 nor 1 is at least 2, and engine
operations have no condition. -/
theorem decodedInstructionsAreWellFormed : Obligations.DecodedInstructionsAreWellFormed := by
  unfold Obligations.DecodedInstructionsAreWellFormed
  intro p c
  match c with
  | .transaction ⟨.rd, off, w⟩ => rw [decode, decodeTransaction_rd]; exact (region_wf p off).1
  | .transaction ⟨.wr, off, w⟩ => rw [decode, decodeTransaction_wr]; exact writeRow_region_wf p w off
  | .enginePhase ph => exact decodePhase_wf p ph

/-- Settles O6: the two offsets lie in the same word, so they name the same region. -/
theorem misalignedOffsetsAlias : Obligations.MisalignedOffsetsAlias := by
  unfold Obligations.MisalignedOffsetsAlias
  intro p d off w
  have word : region p off = region p (off &&& 0xFFFFFFFC#32) := by
    apply region_congr
    rw [toNat_and_clear off 2 (by decide) _ (by decide)]
    omega
  cases d with
  | rd => rw [decodeTransaction_rd, decodeTransaction_rd, word]
  | wr => rw [decodeTransaction_wr, decodeTransaction_wr, word]

/-- Settles O8: thirteen closed equations, evaluated. -/
theorem tableWordsDecode : Obligations.TableWordsDecode := by
  unfold Obligations.TableWordsDecode
  decide

end Sys2Proof.Machine
end

section
/-! PROOFS of the family other, the engine: what its operations leave alone, how they move pc and BUSY, and that neither
depends on the data (45_sequencer.md, 10_state.md sections 2 to 4, 20_memory.md sections 1 and 6). -/

namespace Sys2Proof.Machine

/-! ## What an engine operation leaves alone -/

/-- An engine operation writes a..h, H, W, pc and STATUS only, and of STATUS neither ERR nor ERRCODE. -/
theorem exec_engine_frame {i : Instr} {s t : State} (hi : i.isHost = false) (h : exec i s = .next t) :
    t = { s with work := t.work, H := t.H, W := t.W, pc := t.pc, status := t.status } ∧
      t.status.err = s.status.err ∧ t.status.errcode = s.status.errcode := by
  rcases exec_engine_cases hi h with ⟨rfl, -⟩ | ⟨-, -, rfl⟩ | ⟨-, pc, rfl, -⟩ | ⟨-, rfl⟩ | ⟨-, pc, rfl, -⟩ |
    ⟨-, ⟨-, rfl⟩ | ⟨-, rfl⟩⟩
  all_goals exact ⟨rfl, rfl, rfl⟩

/-- So it writes none of the host's inputs, the latched length or MSG_CAP. -/
theorem exec_engine_inputs {i : Instr} {s t : State} (hi : i.isHost = false) (h : exec i s = .next t) :
    t.params = s.params ∧ t.mem = s.mem ∧ t.Lq = s.Lq ∧ t.NB = s.NB ∧ t.lenLo = s.lenLo ∧ t.lenHi = s.lenHi ∧
      t.events = s.events := by
  rw [(exec_engine_frame hi h).1]
  exact ⟨rfl, rfl, rfl, rfl, rfl, rfl, rfl⟩

/-- Settles O52: each outcome of an engine operation is an update of these registers. -/
theorem engineLeavesHostInputsAlone : Obligations.EngineLeavesHostInputsAlone := by
  unfold Obligations.EngineLeavesHostInputsAlone
  exact fun i s t hi h => exec_engine_frame hi h

/-- While BUSY = 1 a host row only replies (20_memory.md R76, 70_reset_and_hazards.md R316). -/
theorem exec_host_of_busy {i : Instr} {s : State} (hbusy : s.status.busy = true) (hi : i.isHost = true) :
    ∃ w, exec i s = .next (s.reply w) := by
  have busy : s.status.busy ≠ false := by rw [hbusy]; decide
  obtain ⟨t, hexec, rfl | ⟨w, rfl⟩ | ⟨hidle, -⟩ | ⟨hidle, -⟩ | ⟨hidle, -⟩ | ⟨hidle, -⟩⟩ := exec_host_cases s hi
  · exact ⟨t.rdata, hexec⟩
  · exact ⟨w, hexec⟩
  all_goals exact absurd hidle busy

/-- Settles O53: a host row that stores asks for BUSY = 0, and the engine's inputs are outside what it writes. -/
theorem hostCannotDisturbComputation : Obligations.HostCannotDisturbComputation := by
  unfold Obligations.HostCannotDisturbComputation
  refine ⟨fun i s hbusy hi => exec_host_of_busy hbusy hi, fun i s t hi h => ?engine⟩
  case engine =>
    obtain ⟨-, hmem, hLq, hNB, hlo, hhi, -⟩ := exec_engine_inputs hi h
    exact ⟨hmem, hLq, hNB, hlo, hhi⟩

/-- Settles O26: both rows are skip by definition. -/
theorem idleAndReservedPhasesTakeNoStep : Obligations.IdleAndReservedPhasesTakeNoStep := by
  unfold Obligations.IdleAndReservedPhasesTakeNoStep
  exact fun s => ⟨exec_engIdle s, fun _ => rfl⟩

/-! ## How an engine operation moves pc and STATUS -/

/-- The operation of `p` ends a computation of `nb` blocks: it is the FOLD of the last block (43_compressor.md R168). -/
def Pc.isLastFold (nb : Nat) (p : Pc) : Prop := p.phase = 5#3 ∧ nb ≤ p.blk + 1

/-- Where phase is IDLE or reserved the successor function keeps pc: the engine has no step. -/
theorem Pc.successor_of_no_step (nb : Nat) {p : Pc} (h : p.phase = 0#3 ∨ 6 ≤ p.phase.toNat) : p.successor nb = p := by
  have ne (c : BitVec 3) (hc : ¬(c = 0#3 ∨ 6 ≤ c.toNat)) : p.phase ≠ c := fun e => hc (e ▸ h)
  rw [Pc.successor, if_neg (ne 1#3 (by decide)), if_neg (ne 2#3 (by decide)), if_neg (ne 3#3 (by decide)),
    if_neg (ne 4#3 (by decide)), if_neg (ne 5#3 (by decide))]

/-- The pc of an operation that counts t up to 63 and then goes on to `after`, given field by field. -/
theorem pc_eq_of_loop {pc p : Pc} {loop after : BitVec 3}
    (hnext : p.t.val < 63 → pc.phase = loop ∧ pc.blk = p.blk ∧ pc.t.val = p.t.val + 1)
    (hlast : p.t.val = 63 → pc = ⟨after, p.blk, 0⟩) :
    pc = if p.t.val < 63 then ⟨loop, p.blk, p.t + 1⟩ else ⟨after, p.blk, 0⟩ := by
  split
  next h =>
    obtain ⟨hphase, hblk, ht⟩ := hnext h
    have next : pc.t = p.t + 1 := Fin.ext (by rw [ht, Fin.val_add_one_of_lt' (by omega)])
    rw [← hphase, ← hblk, ← next]
  next h => exact hlast (by omega)

/-- The control flow of the engine: the last FOLD ends the computation, keeping blk and t; any other operation moves pc
by the successor function and keeps STATUS. Only pc and NB choose. -/
theorem exec_decodePhase_cases {s t : State} (h : exec (decodePhase s.pc.phase) s = .next t) :
    (s.pc.isLastFold s.NB ∧ t.pc = ⟨0#3, s.pc.blk, s.pc.t⟩ ∧ t.status = s.status.finished) ∨
    (¬s.pc.isLastFold s.NB ∧ t.pc = s.pc.successor s.NB ∧ t.status = s.status) := by
  have noFold {c : BitVec 3} (hc : s.pc.phase = c) (hne : c ≠ 5#3) : ¬s.pc.isLastFold s.NB :=
    fun hlast => hne (hc.symm.trans hlast.1)
  rcases decodePhase_cases s.pc.phase with ⟨hp, e⟩ | ⟨hp, e⟩ | ⟨hp, e⟩ | ⟨hp, e⟩ | ⟨hp, e⟩ | ⟨hp, e⟩ | ⟨hp, l, e⟩
  all_goals rw [e] at h
  · cases h
    exact .inr ⟨noFold hp (by decide), (Pc.successor_of_no_step _ (.inl hp)).symm, rfl⟩
  · rcases execEngSchedLoad_cases s with ⟨m, -, load⟩ | ⟨-, load⟩
    all_goals
      rw [exec, load] at h
      cases h
    exact .inr ⟨noFold hp (by decide), by simp [Pc.successor, hp], rfl⟩
  · obtain ⟨pc, expand, hnext, hlast⟩ := exec_engSchedExpand s
    rw [expand] at h
    cases h
    exact .inr ⟨noFold hp (by decide), by simpa [Pc.successor, hp] using pc_eq_of_loop hnext hlast, rfl⟩
  · cases h
    exact .inr ⟨noFold hp (by decide), by simp [Pc.successor, hp], rfl⟩
  · obtain ⟨pc, round, hnext, hlast⟩ := exec_engRound s
    rw [round] at h
    cases h
    exact .inr ⟨noFold hp (by decide), by simpa [Pc.successor, hp] using pc_eq_of_loop hnext hlast, rfl⟩
  · rcases execEngFold_cases s with ⟨more, fold⟩ | ⟨last, fold⟩
    all_goals
      rw [exec, fold] at h
      cases h
    · exact .inr ⟨fun hlast => Nat.not_le.2 more hlast.2, by simp [Pc.successor, hp, more], rfl⟩
    · exact .inl ⟨⟨hp, last⟩, rfl, rfl⟩
  · cases h
    have stuck : s.pc.phase ≠ 5#3 := fun hp5 => by rw [hp5] at hp; exact absurd hp (by decide)
    exact .inr ⟨fun hlast => stuck hlast.1, (Pc.successor_of_no_step _ (.inr hp)).symm, rfl⟩

/-! ## A host row writes pc, H and BUSY only as an accepted START -/

/-- A host row leaves pc, H and BUSY alone, or it is an accepted START, which writes them all. -/
theorem exec_host_keeps_or_starts {i : Instr} {s t : State} (hi : i.isHost = true) (h : exec i s = .next t) :
    (t.pc = s.pc ∧ t.H = s.H ∧ t.status.busy = s.status.busy) ∨
    ((∃ ignored, i = .ctrlStart ignored ∧ s.status.busy = false ∧ s.length.toNat ≤ s.params.msgCap) ∧
      t.Lq = s.length ∧ t.H = IV ∧ t.status.busy = true) := by
  obtain ⟨u, hexec, hcases⟩ := exec_host_cases s hi
  rw [h] at hexec
  cases hexec
  rcases hcases with rfl | ⟨w, rfl⟩ | ⟨-, w, -, rfl⟩ | ⟨-, w, -, rfl⟩ | ⟨-, m, w, -, rfl⟩ |
    ⟨hidle, ignored, rfl, hstart⟩
  case inr.inr.inr.inr.inr =>
    rcases execCtrlStart_cases ignored s with ⟨-, e⟩ | ⟨-, -, e⟩ | ⟨-, -, -, e⟩ | ⟨-, hfits, e⟩
    all_goals
      rw [e] at hstart
      cases hstart
    · exact .inl ⟨rfl, rfl, rfl⟩
    · exact .inl ⟨rfl, rfl, hidle.symm⟩
    · exact .inl ⟨rfl, rfl, hidle.symm⟩
    · exact .inr ⟨⟨ignored, rfl, hidle, hfits⟩, rfl, rfl, rfl⟩
  all_goals exact .inl ⟨rfl, rfl, rfl⟩

/-- In the states of the invariant the pc after the last FOLD is the successor too: t is 0 there (R216, log 11). -/
theorem State.Inv.successor_of_lastFold {s : State} (hinv : s.Inv) (h : s.pc.isLastFold s.NB) :
    s.pc.successor s.NB = ⟨0#3, s.pc.blk, s.pc.t⟩ := by
  obtain ⟨hphase, hlast⟩ := h
  have ht : s.pc.t = 0 := Fin.ext (hinv.t_zero (.inr (.inr hphase)))
  rw [ht]
  simp [Pc.successor, hphase, Nat.not_lt.2 hlast]

/-- During a computation the last FOLD is the one of block NB - 1. -/
theorem State.Inv.isLastFold_iff {s : State} (hinv : s.Inv) (hbusy : s.status.busy = true) :
    s.pc.isLastFold s.NB ↔ s.pc.phase = 5#3 ∧ s.pc.blk + 1 = s.NB := by
  obtain ⟨-, -, hblk⟩ := hinv.latched hbusy
  exact and_congr_right fun _ => by omega

/-- Settles O50: the last FOLD is the one operation that leaves STATUS changed, and the invariant makes its pc the
successor's; an accepted START is the one host row that moves pc. -/
theorem engineFollowsSuccessorFunction : Obligations.EngineFollowsSuccessorFunction := by
  unfold Obligations.EngineFollowsSuccessorFunction
  refine ⟨fun s t hinv hbusy h => ?engine, exec_engIdle, fun s hi hidle hok => ?start, fun i s t hi h hno => ?host⟩
  case engine =>
    rw [← hinv.isLastFold_iff hbusy]
    rcases exec_decodePhase_cases h with ⟨hlast, hpc, hst⟩ | ⟨hmore, hpc, hst⟩
    · exact ⟨hpc.trans (hinv.successor_of_lastFold hlast).symm, fun _ => by rw [hst]; exact ⟨rfl, rfl⟩,
        fun hmore => absurd hlast hmore⟩
    · exact ⟨hpc, fun hlast => absurd hlast hmore, fun _ => hst⟩
  case start =>
    obtain ⟨-, -, -, accepted⟩ := startFollowsItsRule s hi
    exact ⟨_, accepted hidle hok, rfl, rfl⟩
  case host =>
    rw [← s.length_toNat] at hno
    rcases exec_host_keeps_or_starts hi h with ⟨hpc, -⟩ | ⟨accepted, -⟩
    · exact hpc
    · exact absurd accepted hno

/-! ## One step, by its event -/

/-- A pending transaction runs the row it decodes to. -/
theorem step_of_host {s : State} {tr : Transaction} {rest : List Event} (he : s.events = .host tr :: rest) :
    step s = exec (decodeTransaction s.params tr) { s with events := rest } := by
  simp [step, State.resetIsNext, State.nextCode, State.popEvent, he, decode]

/-- The engine's turn, or no event at all, runs the operation the engine has. -/
theorem step_of_turn {s : State} {rest : List Event}
    (he : s.events = .engine :: rest ∨ (s.events = [] ∧ rest = [])) :
    step s = exec (decode s.params s.engineCode) { s with events := rest } := by
  rcases he with he | ⟨he, rfl⟩ <;> simp [step, State.resetIsNext, State.nextCode, State.popEvent, he]

/-- A reset resets. -/
theorem step_of_reset {s : State} {rest : List Event} (he : s.events = .reset :: rest) :
    step s = .next (State.applyReset { s with events := rest }) := by
  simp [step, State.resetIsNext, State.popEvent, he]

/-- Settles O9: the first event of the list chooses the branch of `step`. -/
theorem stepTakesTheNextEvent : Obligations.StepTakesTheNextEvent := by
  unfold Obligations.StepTakesTheNextEvent
  refine fun s rest => ⟨fun t i he hi => ?host, fun i he hi => ?turn, step_of_reset⟩
  case host => rw [step_of_host he, hi]
  case turn => rw [step_of_turn he, hi]

/-- With no event pending and BUSY = 0 nothing changes. -/
theorem step_idle {s : State} (he : s.events = []) (hidle : s.status.busy = false) : step s = .next s := by
  rw [step_of_turn (.inr ⟨he, rfl⟩), decode_engineCode_of_idle hidle, exec_engIdle, ← he]

theorem run_idle {s : State} (he : s.events = []) (hidle : s.status.busy = false) (n : Nat) :
    Host.Core.run core n s = .next s := by
  induction n with
  | zero => rfl
  | succ n ih => rw [run_succ (step_idle he hidle), ih]

theorem coreRun_succ_next (M : Host.Core) {s t : M.State} {n : Nat} (h : M.run (n + 1) s = .next t) :
    ∃ u, M.step s = .next u ∧ M.run n u = .next t := by
  rw [Host.Core.run] at h
  split at h
  next u e => exact ⟨u, e, h⟩
  all_goals cases h

/-- A run that answers a state answers one after its first step. -/
theorem run_succ_next {s t : State} {n : Nat} (h : Host.Core.run core (n + 1) s = .next t) :
    ∃ u, step s = .next u ∧ Host.Core.run core n u = .next t := coreRun_succ_next core h

/-! ## Two computations in step -/

/-- The two blocks agree on what the control flow reads, and no event is pending in either. -/
structure InStep (s u : State) : Prop where
  pc : s.pc = u.pc
  NB : s.NB = u.NB
  busy : s.status.busy = u.status.busy
  noEvents : s.events = [] ∧ u.events = []

/-- The engine's operations keep two blocks in step. -/
theorem InStep.exec {s u s' u' : State} (h : InStep s u) (es : exec (decodePhase s.pc.phase) s = .next s')
    (eu : Machine.exec (decodePhase u.pc.phase) u = .next u') : InStep s' u' := by
  obtain ⟨hpc, hNB, hbusy, hevents⟩ := h
  obtain ⟨-, -, -, sNB, -, -, sevents⟩ := exec_engine_inputs (decodePhase_isHost _) es
  obtain ⟨-, -, -, uNB, -, -, uevents⟩ := exec_engine_inputs (decodePhase_isHost _) eu
  have same : s.pc.isLastFold s.NB ↔ u.pc.isLastFold u.NB := by rw [hpc, hNB]
  have kept : s'.NB = u'.NB ∧ s'.events = [] ∧ u'.events = [] := by
    rw [sNB, uNB, sevents, uevents]
    exact ⟨hNB, hevents⟩
  rcases exec_decodePhase_cases es with ⟨sl, spc, sst⟩ | ⟨sl, spc, sst⟩ <;>
    rcases exec_decodePhase_cases eu with ⟨ul, upc, ust⟩ | ⟨ul, upc, ust⟩
  · exact ⟨by rw [spc, upc, hpc], kept.1, by rw [sst, ust]; rfl, kept.2⟩
  · exact absurd (same.1 sl) ul
  · exact absurd (same.2 ul) sl
  · exact ⟨by rw [spc, upc, hpc, hNB], kept.1, by rw [sst, ust, hbusy], kept.2⟩

/-- So does one step of each: an engine turn of both, or of neither. -/
theorem InStep.step {s u s' u' : State} (h : InStep s u) (es : Machine.step s = .next s')
    (eu : Machine.step u = .next u') : InStep s' u' := by
  obtain ⟨hs, hu⟩ := h.noEvents
  cases hbusy : s.status.busy with
  | true =>
    rw [step_engine hs hbusy] at es
    rw [step_engine hu (h.busy ▸ hbusy)] at eu
    exact h.exec es eu
  | false =>
    rw [step_idle hs hbusy] at es
    rw [step_idle hu (h.busy ▸ hbusy)] at eu
    cases es
    cases eu
    exact h

theorem InStep.run {n : Nat} {s u s' u' : State} (h : InStep s u) (es : Host.Core.run core n s = .next s')
    (eu : Host.Core.run core n u = .next u') : InStep s' u' := by
  induction n generalizing s u with
  | zero =>
    cases es
    cases eu
    exact h
  | succ n ih =>
    obtain ⟨_, es₁, es⟩ := run_succ_next es
    obtain ⟨_, eu₁, eu⟩ := run_succ_next eu
    exact ih (h.step es₁ eu₁) es eu

/-- Settles O51: each turn moves pc, BUSY and NB by pc, BUSY and NB alone. -/
theorem controlFlowIsDataIndependent : Obligations.ControlFlowIsDataIndependent := by
  unfold Obligations.ControlFlowIsDataIndependent
  intro n s u s' u' hpc hNB hbusy hs hu es eu
  obtain ⟨hpc', hNB', hbusy', -⟩ := InStep.run ⟨hpc, hNB, hbusy, hs, hu⟩ es eu
  exact ⟨hpc', hbusy', hNB'⟩

end Sys2Proof.Machine
end

section
/-! PROOFS of the family other, reset and the invariant: what follows a reset, every step keeps the invariant, and where
a step can stop (70_reset_and_hazards.md section 1, 10_state.md section 4, 60_exceptions.md sections 1 and 4). -/

namespace Sys2Proof.Machine

/-! ## After a reset -/

/-- Settles O12: reset clears BUSY, so that no turn changes anything, and DONE, which shuts both views. -/
theorem resetAbortsComputation : Obligations.ResetAbortsComputation := by
  unfold Obligations.ResetAbortsComputation
  exact fun s he => ⟨_, step_of_reset he, fun n => ⟨_, run_idle rfl rfl n, rfl, rfl, rfl,
    exec_rdDigest_of_not_done rfl, exec_rdHex_of_not_done rfl⟩⟩

/-- Settles O13: the registers hold their reset values, DONE = 0 shuts both views, and the other reads reply. -/
theorem hostReadsAfterReset : Obligations.HostReadsAfterReset := by
  unfold Obligations.HostReadsAfterReset
  have word : Status.word ⟨false, false, false, 0#4⟩ = 0x00000000#32 := by decide
  exact fun p => ⟨rfl, exec_rdStatus_of_word word, rfl, rfl, rfl, exec_rdDigest_of_not_done rfl,
    exec_rdHex_of_not_done rfl, fun m => ⟨_, exec_rdMsg m _⟩, fun _ => rfl⟩

/-! ## The invariant: what it reads -/

/-- The invariant reads MSG_CAP, STATUS, pc, Lq, NB and the buffer only. -/
theorem State.Inv.congr {s t : State} (h : s.Inv) (params : t.params = s.params) (status : t.status = s.status)
    (pc : t.pc = s.pc) (Lq : t.Lq = s.Lq) (NB : t.NB = s.NB) (mem : t.mem = s.mem) : t.Inv where
  busy_clear := by rw [status]; exact h.busy_clear
  done_clear := by rw [status]; exact h.done_clear
  err_code := by rw [status]; exact h.err_code
  code_legal := by rw [status]; exact h.code_legal
  busy_phase := by rw [status, pc]; exact h.busy_phase
  phase_legal := by rw [pc]; exact h.phase_legal
  latched := by rw [status, params, pc, Lq, NB]; exact h.latched
  t_zero := by rw [pc]; exact h.t_zero
  t_expand := by rw [pc]; exact h.t_expand
  mem_wf := by rw [mem]; exact h.mem_wf
  mem_inBuffer := by rw [mem, params]; exact h.mem_inBuffer
  mem_wholeWords := by rw [mem]; exact h.mem_wholeWords

/-- Settles O14: the reset values are those of an idle block without an error, and the buffer is empty. -/
theorem resetStateMeetsInvariant : Obligations.ResetStateMeetsInvariant := by
  unfold Obligations.ResetStateMeetsInvariant
  exact fun p => {
    busy_clear := nofun
    done_clear := nofun
    err_code := by simp
    code_legal := by simp
    busy_phase := by simp
    phase_legal := by simp
    latched := nofun
    t_zero := by simp
    t_expand := by simp
    mem_wf := State.resetWith_mem_wf p
    mem_inBuffer := nofun
    mem_wholeWords := fun _ _ _ => rfl }

/-! ## The invariant: a reset and the host's rows -/

theorem State.Inv.applyReset (s : State) : s.applyReset.Inv :=
  (resetStateMeetsInvariant s.params).congr rfl rfl rfl rfl rfl rfl

/-- A START that fails records an error of an idle block. -/
theorem State.Inv.failed {s : State} (h : s.Inv) (hidle : s.status.busy = false) {code : BitVec 4}
    (hcode : code ≠ 0#4) (hlegal : code.toNat ≤ 2) : State.Inv { s with status := ⟨false, false, true, code⟩ } := by
  have hphase := h.phase_idle_of_idle hidle
  exact { h with
    busy_clear := nofun
    done_clear := nofun
    err_code := by simp [hcode]
    code_legal := hlegal
    busy_phase := by simp [hphase]
    latched := nofun }

/-- An accepted START begins the first block of a computation. -/
theorem State.Inv.started {s : State} (h : s.Inv) (hfits : s.length.toNat ≤ s.params.msgCap) :
    State.Inv { s with
      Lq := s.length, NB := blocksOf s.length.toNat, H := IV, pc := ⟨1#3, 0, 0⟩,
      status := ⟨true, false, false, 0#4⟩ } :=
  { h with
    busy_clear := fun _ => ⟨rfl, rfl⟩
    done_clear := nofun
    err_code := by simp
    code_legal := by simp
    busy_phase := by simp
    phase_legal := by simp
    latched := fun _ => ⟨hfits, rfl, Nat.succ_pos _⟩
    t_zero := fun _ => rfl
    t_expand := nofun }

theorem execCtrlStart_inv {s t : State} {ignored : BitVec 28} (hinv : s.Inv)
    (h : execCtrlStart ignored s = .next t) : t.Inv := by
  rcases execCtrlStart_cases ignored s with ⟨-, e⟩ | ⟨hidle, -, e⟩ | ⟨hidle, -, -, e⟩ | ⟨-, hfits, e⟩
  all_goals
    rw [e] at h
    cases h
  · exact hinv
  · exact hinv.failed hidle (by decide) (by decide)
  · exact hinv.failed hidle (by decide) (by decide)
  · exact hinv.started hfits

/-- A word written inside the buffer keeps its form (20_memory.md R62, 70_reset_and_hazards.md R319). -/
theorem State.Inv.wrote {s : State} (h : s.Inv) {m : BitVec 29} (hm : 4 * m.toNat < s.params.msgCap) (w : Word) :
    State.Inv { s with mem := s.mem.setWord (4 * m.toNat) w } := by
  have hmod := s.params.msgCap_mod
  exact { h with
    mem_wf := Memory.wf_setWord h.mem_wf _ _
    mem_inBuffer := Memory.inBuffer_setWord h.mem_inBuffer _ (by omega)
    mem_wholeWords := Memory.wholeWords_setWord h.mem_wholeWords _ _ }

/-- A host row keeps the invariant, when the word it writes lies in the buffer, as every decoded one does. -/
theorem exec_host_inv {i : Instr} {s t : State} (hinv : s.Inv) (hi : i.isHost = true)
    (hwindow : ∀ m w, i = .wrMsg m w → 4 * m.toNat < s.params.msgCap) (h : exec i s = .next t) : t.Inv := by
  obtain ⟨u, hexec, hcases⟩ := exec_host_cases s hi
  rw [h] at hexec
  cases hexec
  rcases hcases with rfl | ⟨w, rfl⟩ | ⟨-, w, -, rfl⟩ | ⟨-, w, -, rfl⟩ | ⟨-, m, w, e, rfl⟩ | ⟨-, ignored, -, hstart⟩
  · exact hinv
  · exact hinv.congr rfl rfl rfl rfl rfl rfl
  · exact hinv.congr rfl rfl rfl rfl rfl rfl
  · exact hinv.congr rfl rfl rfl rfl rfl rfl
  · exact hinv.wrote (hwindow m w e) w
  · exact execCtrlStart_inv hinv hstart

/-! ## The invariant: the engine -/

/-- What the invariant says of pc during a computation of `nb` blocks. -/
structure Pc.Legal (nb : Nat) (p : Pc) : Prop where
  busy : p.phase ≠ 0#3
  phase_legal : p.phase.toNat ≤ 5
  blk_lt : p.blk < nb
  t_zero : p.phase = 1#3 ∨ p.phase = 3#3 ∨ p.phase = 5#3 → p.t.val = 0
  t_expand : p.phase = 2#3 → 16 ≤ p.t.val

theorem State.Inv.pc_legal {s : State} (h : s.Inv) (hbusy : s.status.busy = true) : s.pc.Legal s.NB where
  busy := h.busy_phase.1 hbusy
  phase_legal := h.phase_legal
  blk_lt := (h.latched hbusy).2.2
  t_zero := h.t_zero
  t_expand := h.t_expand

/-- The phases of a computation. -/
theorem Pc.Legal.phase_cases {nb : Nat} {p : Pc} (h : p.Legal nb) :
    p.phase = 1#3 ∨ p.phase = 2#3 ∨ p.phase = 3#3 ∨ p.phase = 4#3 ∨ p.phase = 5#3 := by
  obtain ⟨hne, hle, -⟩ := h
  revert hne hle
  generalize p.phase = phase
  revert phase
  decide

/-- A pc at the start of SCHED_LOAD, ROUND_INIT, ROUND or FOLD is legal in any block of the computation. -/
theorem Pc.Legal.atZero {nb blk : Nat} (hblk : blk < nb) {phase : BitVec 3} (hne : phase ≠ 0#3)
    (hle : phase.toNat ≤ 5) (hexpand : phase ≠ 2#3) : Pc.Legal nb ⟨phase, blk, 0⟩ where
  busy := hne
  phase_legal := hle
  blk_lt := hblk
  t_zero := fun _ => rfl
  t_expand := fun h => absurd h hexpand

/-- A pc in SCHED_EXPAND is legal from t = 16 on (42_scheduler.md R146). -/
theorem Pc.Legal.expand {nb blk : Nat} (hblk : blk < nb) {t : Fin 64} (ht : 16 ≤ t.val) :
    Pc.Legal nb ⟨2#3, blk, t⟩ where
  busy := by simp
  phase_legal := by simp
  blk_lt := hblk
  t_zero := by simp
  t_expand := fun _ => ht

/-- A pc in ROUND is legal at every t. -/
theorem Pc.Legal.round {nb blk : Nat} (hblk : blk < nb) (t : Fin 64) : Pc.Legal nb ⟨4#3, blk, t⟩ where
  busy := by simp
  phase_legal := by simp
  blk_lt := hblk
  t_zero := by simp
  t_expand := by simp

/-- The successor of a legal pc is legal, while the computation goes on (45_sequencer.md R216). -/
theorem Pc.Legal.successor {nb : Nat} {p : Pc} (h : p.Legal nb) (hmore : ¬p.isLastFold nb) :
    (p.successor nb).Legal nb := by
  have hblk := h.blk_lt
  rcases h.phase_cases with hp | hp | hp | hp | hp <;> simp only [Pc.successor, hp, BitVec.reduceEq, if_true, if_false]
  · exact .expand hblk (by decide)
  · split
    next ht =>
      have hexpand := h.t_expand hp
      exact .expand hblk (by rw [Fin.val_add_one_of_lt' (by omega)]; omega)
    next => exact .atZero hblk (by decide) (by decide) (by decide)
  · exact .round hblk 0
  · split
    next => exact .round hblk _
    next => exact .atZero hblk (by decide) (by decide) (by decide)
  · have next : p.blk + 1 < nb := Nat.lt_of_not_le fun hlast => hmore ⟨hp, hlast⟩
    rw [if_pos next]
    exact .atZero next (by decide) (by decide) (by decide)

/-- The engine goes on with a computation. -/
theorem State.Inv.moved {s t : State} (h : s.Inv) (hbusy : s.status.busy = true) (params : t.params = s.params)
    (status : t.status = s.status) (hpc : t.pc.Legal s.NB) (Lq : t.Lq = s.Lq) (NB : t.NB = s.NB)
    (mem : t.mem = s.mem) : t.Inv := by
  obtain ⟨hfits, hcount, -⟩ := h.latched hbusy
  have kept := h.congr (t := { t with pc := s.pc }) params status rfl Lq NB mem
  exact { kept with
    busy_phase := by rw [status]; exact ⟨fun _ => hpc.busy, fun _ => hbusy⟩
    phase_legal := hpc.phase_legal
    latched := fun _ => by rw [params, Lq, NB]; exact ⟨hfits, hcount, hpc.blk_lt⟩
    t_zero := hpc.t_zero
    t_expand := hpc.t_expand }

/-- The engine ends a computation. -/
theorem State.Inv.finished {s t : State} (h : s.Inv) (hbusy : s.status.busy = true) (params : t.params = s.params)
    (status : t.status = s.status.finished) (hphase : t.pc.phase = 0#3) (mem : t.mem = s.mem) : t.Inv := by
  obtain ⟨-, hnoErr⟩ := h.busy_clear hbusy
  have kept :=
    h.congr (t := { t with pc := s.pc, status := s.status, Lq := s.Lq, NB := s.NB }) params rfl rfl rfl rfl mem
  exact { kept with
    busy_clear := by rw [status]; nofun
    done_clear := fun _ => by rw [status]; exact hnoErr
    err_code := by rw [status]; exact h.err_code
    code_legal := by rw [status]; exact h.code_legal
    busy_phase := by simp [status, hphase]
    phase_legal := by simp [hphase]
    latched := by rw [status]; nofun
    t_zero := by simp [hphase]
    t_expand := by simp [hphase] }

/-- The operation that `phase` selects keeps the invariant. -/
theorem exec_decodePhase_inv {s t : State} (hinv : s.Inv) (hbusy : s.status.busy = true)
    (h : exec (decodePhase s.pc.phase) s = .next t) : t.Inv := by
  obtain ⟨params, mem, Lq, NB, -⟩ := exec_engine_inputs (decodePhase_isHost _) h
  rcases exec_decodePhase_cases h with ⟨-, hpc, hst⟩ | ⟨hmore, hpc, hst⟩
  · exact hinv.finished hbusy params hst (by rw [hpc]) mem
  · exact hinv.moved hbusy params hst (hpc ▸ (hinv.pc_legal hbusy).successor hmore) Lq NB mem

/-- Settles O15: the invariant does not read the list of events; a reset establishes it, a decoded host row and the
engine's operation keep it. -/
theorem everyStepKeepsInvariant : Obligations.EveryStepKeepsInvariant := by
  unfold Obligations.EveryStepKeepsInvariant
  intro s t hinv h
  have popped (rest : List Event) : State.Inv { s with events := rest } := hinv.congr rfl rfl rfl rfl rfl rfl
  rcases step_cases s with ⟨rest, -, e⟩ | ⟨tr, rest, -, e⟩ | ⟨rest, -, ⟨hbusy, e⟩ | ⟨-, e⟩⟩ <;> rw [e] at h
  · cases h
    exact State.Inv.applyReset _
  · exact exec_host_inv (popped rest) (decodeTransaction_isHost _ _) (fun m w hm => decodeTransaction_wrMsg_lt hm) h
  · exact exec_decodePhase_inv (popped rest) hbusy h
  · cases h
    exact popped rest

/-! ## Where a step can stop -/

/-- A host row always answers a next state. -/
theorem exec_host_next {i : Instr} (s : State) (hi : i.isHost = true) : ∃ t, exec i s = .next t := by
  obtain ⟨t, h, -⟩ := exec_host_cases s hi
  exact ⟨t, h⟩

/-- An instruction answers a next state, or it is SCHED_LOAD and names an unwritten message word. -/
theorem exec_next_or_fault (i : Instr) (s : State) :
    (∃ t, exec i s = .next t) ∨
      (i = .engSchedLoad ∧ ∃ m, s.firstUnwritten s.pc.blk = some m ∧ exec i s = .fault (.unwrittenMessageWord m)) := by
  cases hi : i.isHost with
  | true => exact .inl (exec_host_next s hi)
  | false =>
    by_cases hload : i = .engSchedLoad
    · subst hload
      rcases execEngSchedLoad_cases s with ⟨m, hm, e⟩ | ⟨-, e⟩
      · exact .inr ⟨rfl, m, hm, e⟩
      · exact .inl ⟨_, e⟩
    · exact .inl (exec_engine_next s hi hload)

/-- SCHED_LOAD is selected by phase 1 only. -/
theorem phase_of_decodePhase_eq_schedLoad {ph : BitVec 3} (h : decodePhase ph = .engSchedLoad) : ph = 1#3 := by
  revert ph
  decide

/-- A step answers a next state, or the engine performs SCHED_LOAD on a block with an unwritten byte below Lq. -/
theorem step_next_or_fault (s : State) : (∃ t, step s = .next t) ∨
    ((s.status.busy = true ∧ s.pc.phase = 1#3 ∧ ∀ t rest, s.events ≠ .host t :: rest) ∧
      ∃ m, s.firstUnwritten s.pc.blk = some m ∧ step s = .fault (.unwrittenMessageWord m)) := by
  rcases step_cases s with ⟨rest, -, e⟩ | ⟨tr, rest, -, e⟩ | ⟨rest, he, ⟨hbusy, e⟩ | ⟨-, e⟩⟩
  · exact .inl ⟨_, e⟩
  · rw [e]
    exact .inl (exec_host_next _ (decodeTransaction_isHost _ _))
  · rcases exec_next_or_fault (decodePhase s.pc.phase) { s with events := rest } with ⟨t, ht⟩ | ⟨hload, m, hm, hfault⟩
    · exact .inl ⟨t, e.trans ht⟩
    · refine .inr ⟨⟨hbusy, phase_of_decodePhase_eq_schedLoad hload, fun tr r h => ?_⟩, m, hm, e.trans hfault⟩
      rw [h] at he
      rcases he with ⟨he, -⟩ | he <;> cases he
  · exact .inl ⟨_, e⟩

/-- Settles O16: of the instructions only SCHED_LOAD has an outcome that is no next state, and its step is an engine
turn with BUSY = 1. -/
theorem onlySchedLoadStops : Obligations.OnlySchedLoadStops := by
  unfold Obligations.OnlySchedLoadStops
  refine ⟨fun i s f h => ?instruction, fun s f h => ?step, fun s r h => ?refusal⟩
  case instruction =>
    rcases exec_next_or_fault i s with ⟨t, e⟩ | ⟨hload, m, -, e⟩
    all_goals
      rw [e] at h
      cases h
    exact ⟨hload, m, rfl⟩
  case step =>
    rcases step_next_or_fault s with ⟨t, e⟩ | ⟨engineTurn, -⟩
    · rw [e] at h
      cases h
    · exact engineTurn
  case refusal =>
    rcases step_next_or_fault s with ⟨t, e⟩ | ⟨-, m, -, e⟩
    all_goals
      rw [e] at h
      cases h

/-- Settles O17: a step that stops reads an unwritten byte below Lq, and the host has written them all. -/
theorem stepsAreTotalUnderHostDuty : Obligations.StepsAreTotalUnderHostDuty := by
  unfold Obligations.StepsAreTotalUnderHostDuty
  intro s _ hduty
  rcases step_next_or_fault s with hnext | ⟨⟨hbusy, -⟩, m, hm, -⟩
  · exact hnext
  · obtain ⟨i, -, -, hbelow, hunwritten, -⟩ := State.firstUnwritten_eq_some hm
    exact absurd (hduty hbusy i hbelow) (by rw [hunwritten]; decide)

end Sys2Proof.Machine
end

section
/-! PROOFS of the family other, the flags and the host's view: who writes ERR, H and BUSY, what STATUS reads, and what
the host cannot see (60_exceptions.md sections 1 and 4, 10_state.md sections 2, 4 and 6, 46_host_interface.md
section 2). -/

namespace Sys2Proof.Machine

/-! ## Who writes ERR, H and BUSY -/

/-- Settles O23: a host row changes the error flags only as a START while BUSY = 0, and no engine operation does. -/
theorem errorFlagsLastUntilStartOrReset : Obligations.ErrorFlagsLastUntilStartOrReset := by
  unfold Obligations.ErrorFlagsLastUntilStartOrReset
  intro s t h
  rcases step_cases s with ⟨rest, he, -⟩ | ⟨tr, rest, he, e⟩ | ⟨rest, -, ⟨-, e⟩ | ⟨-, e⟩⟩
  · exact .inr (.inl ⟨rest, he⟩)
  · rcases exec_errorFlags_cases (e.symm.trans h) with kept | ⟨hidle, ignored, hstart⟩
    · exact .inl kept
    · exact .inr (.inr ⟨hidle, tr, rest, ignored, he, hstart⟩)
  · exact .inl (exec_engine_frame (decodePhase_isHost _) (e.symm.trans h)).2
  · rw [e] at h
    cases h
    exact .inl ⟨rfl, rfl⟩

/-- FOLD is selected by phase 5 only. -/
theorem phase_of_decodePhase_eq_fold {ph : BitVec 3} (h : decodePhase ph = .engFold) : ph = 5#3 := by
  revert ph
  decide

/-- Of the engine's operations only FOLD writes H. -/
theorem exec_engine_hash {i : Instr} {s t : State} (hi : i.isHost = false) (h : exec i s = .next t) :
    t.H = s.H ∨ (i = .engFold ∧ t.H = folded s.H s.work) := by
  rcases exec_engine_cases hi h with ⟨rfl, -⟩ | ⟨-, -, rfl⟩ | ⟨-, pc, rfl, -⟩ | ⟨-, rfl⟩ | ⟨-, pc, rfl, -⟩ |
    ⟨hfold, ⟨-, rfl⟩ | ⟨-, rfl⟩⟩
  case inr.inr.inr.inr.inr.inl => exact .inr ⟨hfold, rfl⟩
  case inr.inr.inr.inr.inr.inr => exact .inr ⟨hfold, rfl⟩
  all_goals exact .inl rfl

/-- Settles O54: a host row writes H only as an accepted START, the engine only by FOLD. -/
theorem onlyStartFoldAndResetWriteHash : Obligations.OnlyStartFoldAndResetWriteHash := by
  unfold Obligations.OnlyStartFoldAndResetWriteHash
  intro s t h
  rcases step_cases s with ⟨rest, he, -⟩ | ⟨tr, rest, -, e⟩ | ⟨rest, -, ⟨hbusy, e⟩ | ⟨-, e⟩⟩
  · exact .inr (.inl ⟨rest, he⟩)
  · rcases exec_host_keeps_or_starts (decodeTransaction_isHost _ _) (e.symm.trans h) with
      ⟨-, hH, -⟩ | ⟨⟨-, -, hidle, -⟩, -, hIV, hbusy⟩
    · exact .inl hH
    · exact .inr (.inr (.inl ⟨hidle, hbusy, hIV⟩))
  · rcases exec_engine_hash (decodePhase_isHost _) (e.symm.trans h) with hH | ⟨hfold, hH⟩
    · exact .inl hH
    · exact .inr (.inr (.inr ⟨hbusy, phase_of_decodePhase_eq_fold hfold, hH⟩))
  · rw [e] at h
    cases h
    exact .inl rfl

/-- Settles O55: a host row writes BUSY only as an accepted START, the engine only by the last FOLD. -/
theorem onlyStartFoldAndResetWriteBusy : Obligations.OnlyStartFoldAndResetWriteBusy := by
  unfold Obligations.OnlyStartFoldAndResetWriteBusy
  intro s t h
  rcases step_cases s with ⟨rest, he, e⟩ | ⟨tr, rest, he, e⟩ | ⟨rest, -, ⟨hbusy, e⟩ | ⟨-, e⟩⟩
  · rw [e] at h
    cases h
    exact .inr (.inl ⟨rest, he, rfl⟩)
  · rcases exec_host_keeps_or_starts (decodeTransaction_isHost _ _) (e.symm.trans h) with
      ⟨-, -, kept⟩ | ⟨⟨ignored, hstart, hidle, hfits⟩, hLq, -, hbusy⟩
    · exact .inl kept
    · exact .inr (.inr (.inl ⟨hidle, hbusy, hLq ▸ hfits, tr, rest, ignored, he, hstart⟩))
  · rcases exec_decodePhase_cases (s := { s with events := rest }) (e.symm.trans h) with
      ⟨⟨hphase, hlast⟩, -, hst⟩ | ⟨-, -, hst⟩
    · exact .inr (.inr (.inr ⟨hbusy, by rw [hst]; rfl, hphase, hlast⟩))
    · exact .inl (by rw [hst])
  · rw [e] at h
    cases h
    exact .inl rfl

/-! ## A stale LEN_HI -/

/-- Settles O24: a non-zero LEN_HI makes L at least 2^32, above every capacity. -/
theorem staleHighLengthRaisesError : Obligations.StaleHighLengthRaisesError := by
  unfold Obligations.StaleHighLengthRaisesError
  intro s ignored hidle hstale
  have hcap := s.params.msgCap_le
  have hhi : s.lenHi.toNat ≠ 0 := BitVec.toNat_ne_iff_ne.2 hstale
  have tooLong : s.params.msgCap < s.length.toNat := by rw [s.length_toNat]; omega
  exact ⟨_, exec_ctrlStart_of_tooLong hidle tooLong ignored, rfl, rfl⟩

/-! ## What STATUS reads -/

/-- The five values of the STATUS fields: idle, busy, done and the two errors (10_state.md R36, R38). -/
theorem State.Inv.status_cases {s : State} (h : s.Inv) :
    s.status = ⟨false, false, false, 0#4⟩ ∨ s.status = ⟨true, false, false, 0#4⟩ ∨
    s.status = ⟨false, true, false, 0#4⟩ ∨ s.status = ⟨false, false, true, 1#4⟩ ∨
    s.status = ⟨false, false, true, 2#4⟩ := by
  have code : ∀ c : BitVec 4, c.toNat ≤ 2 → c = 0#4 ∨ c = 1#4 ∨ c = 2#4 := by decide
  have hcode := code _ h.code_legal
  have hbusy := h.busy_clear
  have hdone := h.done_clear
  have herr := h.err_code
  generalize s.status = f at hcode hbusy hdone herr
  obtain ⟨busy, done, err, errcode⟩ := f
  cases err with
  | false =>
    obtain rfl : errcode = 0#4 := herr.1 rfl
    cases busy with
    | false => cases done <;> simp
    | true =>
      obtain rfl : done = false := (hbusy rfl).1
      simp
  | true =>
    obtain rfl : busy = false := by simpa using hbusy
    obtain rfl : done = false := by simpa using hdone
    have hne : errcode ≠ 0#4 := by simpa using herr
    rcases hcode.resolve_left hne with rfl | rfl <;> simp

/-- Settles O29: each of the five values of STATUS has its word, and the fields tell them apart. -/
theorem statusReadsOneOfFiveWords : Obligations.StatusReadsOneOfFiveWords := by
  unfold Obligations.StatusReadsOneOfFiveWords
  intro s hinv
  refine ⟨_, exec_rdStatus s, ?_⟩
  rw [← hinv.busy_phase]
  rcases hinv.status_cases with h | h | h | h | h <;> rw [h] <;> decide

/-! ## What the host cannot see -/

theorem State.HostAgrees.digestView {s u : State} (h : s.HostAgrees u) (k : Fin 8) :
    s.digestView k = u.digestView k := by
  cases hdone : s.status.done with
  | true => rw [State.digestView, State.digestView, ← h.status, h.hash hdone]
  | false => rw [State.digestView_of_not_done hdone, State.digestView_of_not_done (h.status ▸ hdone)]

theorem State.HostAgrees.hexView {s u : State} (h : s.HostAgrees u) (j : Fin 16) : s.hexView j = u.hexView j := by
  cases hdone : s.status.done with
  | true => rw [State.hexView, State.hexView, ← h.status, h.hash hdone]
  | false => rw [State.hexView_of_not_done hdone, State.hexView_of_not_done (h.status ▸ hdone)]

theorem State.HostAgrees.msgWord {s u : State} (h : s.HostAgrees u) (m : Nat) : s.msgWord m = u.msgWord m := by
  simp only [State.msgWord, State.msgByte, h.mem, h.resets]

theorem State.HostAgrees.length {s u : State} (h : s.HostAgrees u) : s.length = u.length := by
  rw [State.length, State.length, h.lenHi, h.lenLo]

/-- Two states that agree on what the host sees answer a read with the same word (10_state.md R46). -/
theorem exec_read_agrees {i : Instr} {s u : State} (hread : i.isRead = true) (h : s.HostAgrees u) :
    ∃ w, exec i s = .next (s.reply w) ∧ exec i u = .next (u.reply w) := by
  cases i with
  | rdCtrl => exact ⟨_, rfl, rfl⟩
  | rdRsvd word => exact ⟨_, rfl, rfl⟩
  | rdStatus => exact ⟨_, exec_rdStatus s, by rw [exec_rdStatus, h.status]⟩
  | rdLenLo => exact ⟨s.lenLo, rfl, by rw [h.lenLo]; rfl⟩
  | rdLenHi => exact ⟨s.lenHi, rfl, by rw [h.lenHi]; rfl⟩
  | rdCapacity => exact ⟨s.capacity, rfl, by rw [State.capacity, h.params]; rfl⟩
  | rdDigest k => exact ⟨_, exec_rdDigest k s, by rw [exec_rdDigest, h.digestView]⟩
  | rdHex j => exact ⟨_, exec_rdHex j s, by rw [exec_rdHex, h.hexView]⟩
  | rdMsg m => exact ⟨_, exec_rdMsg m s, by rw [exec_rdMsg, h.msgWord]⟩
  | _ => cases hread

/-- Two states that agree on what the host sees agree after a write too: what it stores, and whether it stores, is
decided by what the host sees. -/
theorem exec_write_agrees {i : Instr} {s u s' u' : State} (hi : i.isHost = true) (hwrite : i.isRead = false)
    (h : s.HostAgrees u) (es : exec i s = .next s') (eu : exec i u = .next u') : s'.HostAgrees u' := by
  have hbusy : u.status.busy = s.status.busy := by rw [h.status]
  cases i with
  | wrLenLo w =>
    rw [exec_wrLenLo] at es eu
    rw [hbusy] at eu
    cases es
    cases eu
    split
    · exact h
    · exact { h with lenLo := rfl }
  | wrLenHi w =>
    rw [exec_wrLenHi] at es eu
    rw [hbusy] at eu
    cases es
    cases eu
    split
    · exact h
    · exact { h with lenHi := rfl }
  | wrMsg m w =>
    rw [exec_wrMsg] at es eu
    rw [hbusy] at eu
    cases es
    cases eu
    split
    · exact h
    · exact { h with mem := by simp only [h.mem] }
  | ctrlStart ignored =>
    cases hs : s.status.busy with
    | true =>
      rw [exec_ctrlStart_of_busy hs] at es
      rw [exec_ctrlStart_of_busy (hbusy.trans hs)] at eu
      cases es
      cases eu
      exact h
    | false =>
      rw [exec_ctrlStart_of_idle hs] at es
      rw [exec_ctrlStart_of_idle (hbusy.trans hs), ← h.length, ← h.params] at eu
      cases es
      cases eu
      split
      · exact { h with params := rfl, status := rfl, hash := nofun }
      · split
        · exact { h with params := rfl, status := rfl, hash := nofun }
        · exact { h with params := rfl, status := rfl, hash := fun _ => rfl }
  | ctrlNop | ctrlRsvd | wrStatus | wrCapacity | wrDigest | wrHex | wrRsvd =>
    cases es
    cases eu
    exact h
  | _ => simp [Instr.isHost, Instr.isRead] at hi hwrite

/-- Settles O56: a read replies with the same word in both states and changes nothing else; a write changes them
alike. -/
theorem hiddenStateIsUnobservable : Obligations.HiddenStateIsUnobservable := by
  unfold Obligations.HiddenStateIsUnobservable
  intro i s u s' u' hi h es eu
  cases hread : i.isRead with
  | true =>
    obtain ⟨w, ws, wu⟩ := exec_read_agrees hread h
    rw [ws] at es
    rw [wu] at eu
    cases es
    cases eu
    exact ⟨{ h with }, fun _ => rfl⟩
  | false => exact ⟨exec_write_agrees hi hread h es eu, nofun⟩

end Sys2Proof.Machine
end

section
/-! PROOFS of the family other, the data path's parts: the hexadecimal view, the padder, the written bits and the
constants (44_serializer.md section 2, 41_padder.md, 70_reset_and_hazards.md section 3, 43_compressor.md section 1). -/

namespace Sys2Proof.Machine

/-! ## The hexadecimal view (44_serializer.md R192 to R194) -/

/-- Nibble `n` of a word, 0 the highest, as the digit of its hexadecimal numeral. -/
theorem nibble_toNat (w : Word) (n : Nat) :
    (w.extractLsb' (4 * (7 - n)) 4).toNat = w.toNat / 16 ^ (7 - n) % 16 := by
  rw [BitVec.extractLsb'_toNat, Nat.shiftRight_eq_div_pow, Nat.pow_mul]

/-- Lane c of HEX_j is the character of nibble 4(j mod 2) + c of H[j div 2]. -/
theorem State.hexView_lane_eq_hexChar {s : State} (hdone : s.status.done = true) (j : Fin 16) (c : Fin 4) :
    lane (s.hexView j) c.val =
      hexChar ((s.H[j.val / 2]'(by omega)).extractLsb' (4 * (7 - (4 * (j.val % 2) + c.val))) 4) :=
  (State.hexView_lane hdone j c).trans (hexStrChar_eq s.H j c)

/-- Settles O35: a character of the word is a lane of the view, the code of one nibble's digit. -/
theorem hexReadsRenderDigest : Obligations.HexReadsRenderDigest := by
  unfold Obligations.HexReadsRenderDigest
  refine fun s j => ⟨fun hdone => ⟨_, exec_rdHex j s, rfl, fun c => ?character⟩,
    fun hclear => exec_rdHex_of_not_done hclear j⟩
  case character =>
    rw [State.reply_rdata, ← lane_toNat _ c.isLt, State.hexView_lane_eq_hexChar hdone, hexChar_toNat, nibble_toNat]

/-- Words with equal nibbles are equal. -/
theorem word_ext_nibble {v w : Word}
    (h : ∀ n < 8, v.extractLsb' (4 * (7 - n)) 4 = w.extractLsb' (4 * (7 - n)) 4) : v = w := by
  apply BitVec.eq_of_getLsbD_eq
  intro i hi
  have nibble := congrArg (BitVec.getLsbD · (i % 4)) (h (7 - i / 4) (by omega))
  simpa [BitVec.getLsbD_extractLsb', Nat.mod_lt, show 4 * (7 - (7 - i / 4)) + i % 4 = i by omega] using nibble

/-- Settles O36: equal HEX words have equal characters, so equal nibbles, and each nibble of H has its character. -/
theorem hexReadsDetermineDigest : Obligations.HexReadsDetermineDigest := by
  unfold Obligations.HexReadsDetermineDigest
  intro s u hs hu same
  have view (j : Fin 16) : s.hexView j = u.hexView j := same j _ _ (exec_rdHex j s) (exec_rdHex j u)
  refine Vector.ext fun k hk => word_ext_nibble fun n hn => ?_
  have character := congrArg (lane · (n % 4)) (view ⟨2 * k + n / 4, by omega⟩)
  have digit := hexChar_inj ((State.hexView_lane_eq_hexChar hs _ ⟨n % 4, by omega⟩).symm.trans
    (character.trans (State.hexView_lane_eq_hexChar hu _ ⟨n % 4, by omega⟩)))
  simpa only [show (2 * k + n / 4) / 2 = k by omega, show 4 * ((2 * k + n / 4) % 2) + n % 4 = n by omega] using digit

/-! ## The padder (41_padder.md sections 1 to 3) -/

/-- Settles O38: N is 64 blocks, and (L + 8) div 64 + 1 is the least count of blocks with L + 9 bytes. -/
theorem paddedLengthIsLeastMultiple : Obligations.PaddedLengthIsLeastMultiple := by
  unfold Obligations.PaddedLengthIsLeastMultiple
  intro L
  have hN := padLen_eq L
  refine ⟨⟨_, hN⟩, (padLen_bounds L).1, fun n hn hle => ?least, rfl, by omega⟩
  case least =>
    obtain ⟨k, rfl⟩ := hn
    rw [hN, blocksOf]
    omega

/-- Base-256 digits read from the top spell the number again. -/
theorem foldl_digits (v k : Nat) (hk : k ≤ 8) :
    (List.range k).foldl (fun a i => 256 * a + v / 256 ^ (7 - i) % 256) 0 = v / 256 ^ (8 - k) % 256 ^ k := by
  induction k with
  | zero => simp [Nat.mod_one]
  | succ k ih =>
    have shift : v / 256 ^ (8 - k) = v / 256 ^ (7 - k) / 256 := by
      rw [Nat.div_div_eq_div_mul, ← Nat.pow_succ, show (7 - k).succ = 8 - k by omega]
    rw [List.range_succ, List.foldl_append, ih (by omega), shift, show 8 - (k + 1) = 7 - k by omega, Nat.pow_succ',
      Nat.mod_mul, Nat.add_comm]
    rfl

/-- Settles O39: the values of PADBYTE range by range; the length bytes are the digits of 8 * Lq, below 2^64. -/
theorem paddingInvariants : Obligations.PaddingInvariants := by
  unfold Obligations.PaddingInvariants
  intro s hfits L N
  have hcap := s.params.msgCap_le
  obtain ⟨hlow, hhigh⟩ := padLen_bounds L
  have hN : N = 64 * blocksOf L := padLen_eq L
  refine ⟨by omega, hlow, hhigh, s.padByte_marker, ?length, fun i hi => s.padByte_message hi,
    fun i hi hi' => s.padByte_zero hi hi'⟩
  case length =>
    have digits : ∀ a, ∀ k ∈ List.range 8, 256 * a + (s.padByte (N - 8 + k)).toNat =
        256 * a + 8 * L / 256 ^ (7 - k) % 256 := fun a k hk => by
      rw [s.padByte_length_toNat (List.mem_range.1 hk) (by omega)]
    rw [List.foldl_ext _ _ 0 digits, foldl_digits _ 8 le_rfl]
    omega

/-! ## The bytes that SCHED_LOAD reads (41_padder.md section 3, 70_reset_and_hazards.md R319) -/

/-- SCHED_LOAD stops exactly with the word that the check of its block reports. -/
theorem exec_engSchedLoad_fault_iff (s : State) (f : Fault) :
    exec .engSchedLoad s = .fault f ↔ ∃ m, s.firstUnwritten s.pc.blk = some m ∧ f = .unwrittenMessageWord m := by
  rw [exec]
  rcases execEngSchedLoad_cases s with ⟨m, hm, e⟩ | ⟨hm, e⟩ <;> simp [e, hm, eq_comm]

theorem Memory.written_congr {m n : Memory} {a : Nat} (h : m.get? a = n.get? a) : m.written a = n.written a := by
  rw [Memory.written, Memory.written, h]

/-- The check of a block depends on the written bits below Lq only. -/
theorem State.firstUnwritten_congr {s u : State} (hL : s.Lq = u.Lq)
    (h : ∀ i < s.Lq.toNat, s.mem.written i = u.mem.written i) (b : Nat) :
    s.firstUnwritten b = u.firstUnwritten b := by
  rw [State.firstUnwritten, State.firstUnwritten, ← hL]
  congr 1
  refine List.find?_congr fun i _ => ?_
  by_cases hi : i < s.Lq.toNat
  · rw [h i hi]
  · simp [hi]

/-- A padded byte depends on the message byte there only, and at or beyond Lq on none. -/
theorem State.padByte_congr_at {s u : State} (hL : s.Lq = u.Lq) {i : Nat}
    (h : i < s.Lq.toNat → s.msgByte i = u.msgByte i) : s.padByte i = u.padByte i := by
  by_cases hi : i < s.Lq.toNat
  · rw [s.padByte_message hi, u.padByte_message (hL ▸ hi), h hi]
  · simp only [State.padByte, ← hL, hi, if_false]

/-- A byte written alike is read alike. -/
theorem State.msgByte_congr_of_written {s u : State} {i : Nat} (h : s.mem.get? i = u.mem.get? i)
    (hw : s.mem.written i = true) : s.msgByte i = u.msgByte i := by
  obtain ⟨b, hb⟩ := Option.isSome_iff_exists.1 hw
  rw [State.msgByte_of_get? hb, State.msgByte_of_get? (h ▸ hb)]

/-- What SCHED_LOAD loads when it answers a next state; then every byte it reads has been written. -/
theorem exec_engSchedLoad_next {s t : State} (h : exec .engSchedLoad s = .next t) :
    (∀ i < 16, ∀ hi : i < 64, t.W[i] = s.padWord s.pc.blk i) ∧
    ∀ i, 64 * s.pc.blk ≤ i → i < 64 * s.pc.blk + 64 → i < s.Lq.toNat → s.mem.written i = true := by
  rw [exec] at h
  rcases execEngSchedLoad_cases s with ⟨m, -, e⟩ | ⟨hnone, e⟩
  all_goals
    rw [e] at h
    cases h
  exact ⟨fun i hi _ => s.loadedSchedule_low hi, (s.firstUnwritten_eq_none _).1 hnone⟩

/-- Settles O41: the check reads the written bits below Lq, and a padded byte is a message byte only below Lq, where it
has been written once the check has passed. -/
theorem bytesBeyondLengthDoNotMatter : Obligations.BytesBeyondLengthDoNotMatter := by
  unfold Obligations.BytesBeyondLengthDoNotMatter
  intro s u hL hpc _ _ same
  refine ⟨fun f => ?fault, fun s' u' es eu i hi => word_ext_lane fun j => ?loaded⟩
  case fault =>
    have check := State.firstUnwritten_congr hL (fun i hi => Memory.written_congr (same i hi)) s.pc.blk
    rw [exec_engSchedLoad_fault_iff, exec_engSchedLoad_fault_iff, check, hpc]
  case loaded =>
    obtain ⟨loadedS, written⟩ := exec_engSchedLoad_next es
    obtain ⟨loadedU, -⟩ := exec_engSchedLoad_next eu
    rw [loadedS i hi i.isLt, loadedU i hi i.isLt, ← hpc, State.padWord_lane, State.padWord_lane]
    exact State.padByte_congr_at hL fun h =>
      State.msgByte_congr_of_written (same _ h) (written _ (by omega) (by omega) h)

/-- Settles O43: the check reports a word exactly when one of the block's bytes below Lq is unwritten; reset empties
the buffer, and a stored word is its four bytes. -/
theorem schedLoadFaultsOnUnwrittenWord : Obligations.SchedLoadFaultsOnUnwrittenWord := by
  unfold Obligations.SchedLoadFaultsOnUnwrittenWord
  refine ⟨fun s => ⟨fun ⟨f, h⟩ => ?reported, fun ⟨i, h1, h2, h3, h4⟩ => ?unwritten⟩, fun s m h => ?named,
    fun s a => by rw [State.applyReset_mem, Memory.written_nil], fun s m w hidle => ?stored⟩
  case reported =>
    obtain ⟨m, hm, -⟩ := (exec_engSchedLoad_fault_iff s f).1 h
    obtain ⟨i, h1, h2, h3, h4, -⟩ := State.firstUnwritten_eq_some hm
    exact ⟨i, h1, h2, h3, h4⟩
  case unwritten =>
    have reported : s.firstUnwritten s.pc.blk ≠ none := fun hnone => by
      rw [(s.firstUnwritten_eq_none _).1 hnone i h1 h2 h3] at h4
      cases h4
    obtain ⟨m, hm⟩ := Option.ne_none_iff_exists'.1 reported
    exact ⟨_, (exec_engSchedLoad_fault_iff s _).2 ⟨m, hm, rfl⟩⟩
  case named =>
    obtain ⟨m', hm, e⟩ := (exec_engSchedLoad_fault_iff s _).1 h
    cases e
    obtain ⟨i, -, -, hbelow, hunwritten, hi⟩ := State.firstUnwritten_eq_some hm
    exact ⟨i, hi, hbelow, hunwritten⟩
  case stored =>
    refine ⟨_, by rw [exec_wrMsg, if_neg (Bool.eq_false_iff.1 hidle)], fun a => ?_⟩
    rw [Memory.written_setWord]
    congr 1
    exact decide_eq_decide.2 (by omega)

/-! ## The constants (43_compressor.md R160, R161) -/

/-- Trial division by the numbers below 18. -/
def hasNoSmallDivisor (n : Nat) : Bool :=
  decide (2 ≤ n) && (List.range 18).all fun m => decide (m < 2) || decide (n < m * m) || decide (n % m ≠ 0)

/-- Below 18 * 18 trial division decides primality. -/
theorem hasNoSmallDivisor_iff_prime {n : Nat} (h : n < 324) : hasNoSmallDivisor n = true ↔ n.Prime := by
  simp only [hasNoSmallDivisor, Bool.and_eq_true, decide_eq_true_eq, List.all_eq_true, List.mem_range, Bool.or_eq_true,
    Nat.prime_def_le_sqrt, Nat.le_sqrt, Nat.dvd_iff_mod_eq_zero]
  refine and_congr_right fun _ => ⟨fun hall m hm hle => ?_, fun hall m _ => ?_⟩
  · have hlt : m < 18 := by nlinarith
    rcases hall m hlt with (h2 | hsq) | hmod
    · omega
    · omega
    · exact hmod
  · by_cases hm : m < 2
    · exact .inl (.inl hm)
    · by_cases hle : m * m ≤ n
      · exact .inr (hall m (by omega) hle)
      · exact .inl (.inr (by omega))

theorem firstPrimes_eq_filter : (List.range 312).filter hasNoSmallDivisor = firstPrimes := by decide

/-- K[t] is below the point what the cube root of prime t is there: for some integer part the root lies in the interval
of length 2^-32 that starts at the table's value. -/
theorem K_is_cube_root : ∀ t : Fin 64, ∃ c < 7,
    (c * 2 ^ 32 + (K t).toNat) ^ 3 ≤ firstPrimes.getD t.val 0 * 2 ^ 96 ∧
    firstPrimes.getD t.val 0 * 2 ^ 96 < (c * 2 ^ 32 + (K t).toNat + 1) ^ 3 := by decide

/-- IV[k] is below the point what the square root of prime k is there. -/
theorem IV_is_square_root : ∀ k : Fin 8, ∃ c < 5,
    (c * 2 ^ 32 + IV[k.val].toNat) ^ 2 ≤ firstPrimes.getD k.val 0 * 2 ^ 64 ∧
    firstPrimes.getD k.val 0 * 2 ^ 64 < (c * 2 ^ 32 + IV[k.val].toNat + 1) ^ 2 := by decide

/-- The 32 bits below the point of a fixed-point number with a word there. -/
theorem fraction_eq (c : Nat) (w : Word) : w.toNat = (c * 2 ^ 32 + w.toNat) % 2 ^ 32 := by
  rw [Nat.mul_add_mod', Nat.mod_eq_of_lt w.isLt]

/-- Settles O49: the list is the sieve of the numbers below 312, and each table word, put below the right integer part,
is the root rounded down. -/
theorem constantsAreRootsOfPrimes : Obligations.ConstantsAreRootsOfPrimes := by
  unfold Obligations.ConstantsAreRootsOfPrimes
  refine ⟨fun n hn => ?prime, ?ascending, by decide, fun t => ?cubeRoot, fun k => ?squareRoot⟩
  case prime =>
    rw [← firstPrimes_eq_filter, List.mem_filter, List.mem_range, hasNoSmallDivisor_iff_prime (by omega)]
    exact and_iff_right hn
  case ascending =>
    rw [← firstPrimes_eq_filter]
    exact List.pairwise_lt_range.filter _
  case cubeRoot =>
    obtain ⟨c, -, hle, hlt⟩ := K_is_cube_root t
    exact ⟨_, hle, hlt, fraction_eq c (K t)⟩
  case squareRoot =>
    obtain ⟨c, -, hle, hlt⟩ := IV_is_square_root k
    exact ⟨_, hle, hlt, fraction_eq c IV[k.val]⟩

end Sys2Proof.Machine
end

section
/-! PROOFS of the family other, the block as a whole: 115 steps compress a block, 115 * NB steps a message
(45_sequencer.md, 43_compressor.md section 3). -/

namespace Sys2Proof.Machine

/-! ## One block (45_sequencer.md R213) -/

/-- The sixteen padded words of block `b` (42_scheduler.md R144). -/
def State.blockWords (s : State) (b : Nat) : List Word := (List.range 16).map fun j => s.padWord b j

/-- The padder reads Lq, the buffer and the count of resets only. -/
theorem State.blockWords_congr {s t : State} (hL : t.Lq = s.Lq) (hmem : t.mem = s.mem) (hr : t.resets = s.resets) :
    t.blockWords = s.blockWords := by
  funext b
  simp only [State.blockWords, State.padWord, State.padByte, State.msgByte, hL, hmem, hr]

/-- The first sixteen words that SCHED_LOAD leaves. -/
theorem State.take_loadedSchedule (s : State) : s.loadedSchedule.toList.take 16 = s.blockWords s.pc.blk := by
  refine List.ext_getElem (by simp [State.blockWords]) fun i hi _ => ?_
  have h16 : i < 16 := by simpa using hi
  rw [List.getElem_take, Vector.getElem_toList, s.loadedSchedule_low h16]
  simp [State.blockWords]

/-- SCHED_LOAD and the 48 SCHED_EXPAND steps fill W with the schedule of the block. -/
theorem schedule_run {s : State} (hb : s.status.busy = true) (he : s.events = []) (hp : s.pc.phase = 1#3)
    (hw : s.messageWritten s.Lq.toNat) :
    ∃ W' : Vector Word 64, BusyRun 49 s { s with W := W', pc := ⟨3#3, s.pc.blk, 0⟩ } ∧
      W'.toList = Reference.schedule (s.blockWords s.pc.blk) := by
  have load : Machine.step s = .next { s with W := s.loadedSchedule, pc := ⟨2#3, s.pc.blk, 16⟩ } := by
    rw [step_engine he hb, hp]
    exact exec_engSchedLoad_of_written fun i _ _ hi => hw i hi
  obtain ⟨W', expand, hW⟩ := expand_run 47 { s with W := s.loadedSchedule, pc := ⟨2#3, s.pc.blk, 16⟩ } hb he rfl
    le_rfl rfl
  exact ⟨W', BusyRun.step hb load expand, by rw [hW, Reference.schedule, ← s.take_loadedSchedule]; rfl⟩

/-- ROUND_INIT and the 64 ROUND steps are the rounds of the reference on H. -/
theorem compression_run {s : State} (hb : s.status.busy = true) (he : s.events = []) (hp : s.pc.phase = 3#3) :
    BusyRun 65 s { s with work := Reference.rounds (workOf s.H) s.W.toList, pc := ⟨5#3, s.pc.blk, 0⟩ } := by
  have init : Machine.step s = .next { s with work := workOf s.H, pc := ⟨4#3, s.pc.blk, 0⟩ } := by
    rw [step_engine he hb, hp]
    rfl
  rw [Reference.rounds, List.range_eq_range']
  exact BusyRun.step hb init (rounds_run 63 _ hb he rfl rfl)

theorem getD_toList (H : Vector Word 8) {k : Nat} (h : k < 8) : H.toList.getD k 0#32 = H[k] := by
  simp [List.getD_eq_getElem?_getD, h]

theorem workOf_eq_getD (H : Vector Word 8) : workOf H =
    ⟨H.toList.getD 0 0, H.toList.getD 1 0, H.toList.getD 2 0, H.toList.getD 3 0, H.toList.getD 4 0, H.toList.getD 5 0,
      H.toList.getD 6 0, H.toList.getD 7 0⟩ := by
  simp [workOf]

theorem folded_toList (H : Vector Word 8) (v : Work) :
    (folded H v).toList = List.zipWith (· + ·) H.toList [v.a, v.b, v.c, v.d, v.e, v.f, v.g, v.h] := by
  refine List.ext_getElem (by simp) fun i hi _ => ?_
  have h8 : i < 8 := by simpa using hi
  rw [Vector.getElem_toList, List.getElem_zipWith, Vector.getElem_toList]
  interval_cases i <;> rfl

/-- Folding the rounds of a block's schedule is the compression of the block (43_compressor.md section 3). -/
theorem folded_rounds_toList (H : Vector Word 8) (block : List Word) :
    (folded H (Reference.rounds (workOf H) (Reference.schedule block))).toList =
      Reference.compress H.toList block := by
  rw [folded_toList, workOf_eq_getD, Reference.compress]

/-- FOLD adds the work registers into H and goes on to the next block or ends the computation. -/
theorem fold_run {s : State} (hb : s.status.busy = true) (he : s.events = []) (hp : s.pc.phase = 5#3) :
    (s.pc.blk + 1 < s.NB ∧ BusyRun 1 s { s with H := folded s.H s.work, pc := ⟨1#3, s.pc.blk + 1, 0⟩ }) ∨
    (s.NB ≤ s.pc.blk + 1 ∧ BusyRun 1 s { s with
      H := folded s.H s.work, pc := ⟨0#3, s.pc.blk, s.pc.t⟩, status := s.status.finished }) := by
  have fold : Machine.step s = execEngFold s := by
    rw [step_engine he hb, hp]
    rfl
  rcases execEngFold_cases s with ⟨more, e⟩ | ⟨last, e⟩
  · exact .inl ⟨more, BusyRun.step hb (fold.trans e) (BusyRun.zero _)⟩
  · exact .inr ⟨last, BusyRun.step hb (fold.trans e) (BusyRun.zero _)⟩

/-- The 115 steps of a block. -/
theorem block_run {s : State} (hb : s.status.busy = true) (he : s.events = []) (hp : s.pc.phase = 1#3)
    (hw : s.messageWritten s.Lq.toNat) : ∃ t, BusyRun 115 s t ∧
      t.H.toList = Reference.compress s.H.toList (s.blockWords s.pc.blk) ∧
      t = { s with work := t.work, H := t.H, W := t.W, pc := t.pc, status := t.status } ∧
      ((s.pc.blk + 1 < s.NB ∧ t.pc = ⟨1#3, s.pc.blk + 1, 0⟩ ∧ t.status = s.status) ∨
        (s.NB ≤ s.pc.blk + 1 ∧ t.pc = ⟨0#3, s.pc.blk, 0⟩ ∧ t.status = s.status.finished)) := by
  obtain ⟨W', scheduled, hW⟩ := schedule_run hb he hp hw
  have rounds := scheduled.trans (compression_run (s := { s with W := W', pc := ⟨3#3, s.pc.blk, 0⟩ }) hb he rfl)
  have hash : (folded s.H (Reference.rounds (workOf s.H) W'.toList)).toList =
      Reference.compress s.H.toList (s.blockWords s.pc.blk) := by rw [hW, folded_rounds_toList]
  rcases fold_run (s := { s with
    work := Reference.rounds (workOf s.H) W'.toList, W := W', pc := ⟨5#3, s.pc.blk, 0⟩ }) hb he rfl with
    ⟨more, fold⟩ | ⟨last, fold⟩
  · exact ⟨_, rounds.trans fold, hash, rfl, .inl ⟨more, rfl, rfl⟩⟩
  · exact ⟨_, rounds.trans fold, hash, rfl, .inr ⟨last, rfl, rfl⟩⟩

/-- Settles O57: the steps of a block are SCHED_LOAD, 48 SCHED_EXPAND, ROUND_INIT, 64 ROUND and FOLD. -/
theorem blockCompressesInto115Steps : Obligations.BlockCompressesInto115Steps := by
  unfold Obligations.BlockCompressesInto115Steps
  intro s hb he hp hw
  obtain ⟨t, ⟨-, run⟩, hash, frame, ⟨more, hpc, hst⟩ | ⟨last, hpc, hst⟩⟩ := block_run hb he hp hw
  · exact ⟨t, run, hash, frame, fun _ => ⟨hpc, hst⟩, fun h => by omega⟩
  · exact ⟨t, run, hash, frame, fun h => by omega, fun _ => ⟨hpc, hst⟩⟩

/-! ## A whole computation -/

/-- The blocks from `blk` to the last: `k + 1` of them take 115 * (k + 1) steps and are compressed into H in order. -/
theorem blocks_run (k : Nat) {s : State} (hb : s.status.busy = true) (he : s.events = []) (hp : s.pc.phase = 1#3)
    (hw : s.messageWritten s.Lq.toNat) (hk : s.pc.blk + (k + 1) = s.NB) : ∃ t, BusyRun (115 * (k + 1)) s t ∧
      t.H.toList = ((List.range' s.pc.blk (k + 1)).map s.blockWords).foldl Reference.compress s.H.toList ∧
      t.events = [] ∧ t.pc.phase = 0#3 ∧ t.status = s.status.finished := by
  induction k generalizing s with
  | zero =>
    obtain ⟨t, run, hash, frame, ⟨more, -⟩ | ⟨-, hpc, hst⟩⟩ := block_run hb he hp hw
    · omega
    · exact ⟨t, run, hash, by rw [frame]; exact he, by rw [hpc], hst⟩
  | succ k ih =>
    obtain ⟨u, run, hash, frame, ⟨-, hpc, hst⟩ | ⟨last, -⟩⟩ := block_run hb he hp hw
    · have kept : u.events = s.events ∧ u.Lq = s.Lq ∧ u.mem = s.mem ∧ u.resets = s.resets ∧ u.NB = s.NB := by
        rw [frame]
        exact ⟨rfl, rfl, rfl, rfl, rfl⟩
      obtain ⟨hevents, hLq, hmem, hresets, hNB⟩ := kept
      obtain ⟨t, rest, hash', hev, hphase, hst'⟩ := ih (s := u) (by rw [hst, hb]) (by rw [hevents, he]) (by rw [hpc])
        (by rw [State.messageWritten, hLq, hmem]; exact hw) (by rw [hpc, hNB]; simp only; omega)
      refine ⟨t, by rw [Nat.mul_succ, Nat.add_comm]; exact run.trans rest, ?_, hev, hphase, by rw [hst', hst]⟩
      rw [hash', hash, hpc, State.blockWords_congr hLq hmem hresets, List.range'_succ (n := k + 1)]
      rfl
    · omega

/-! ## The blocks of the padded message -/

/-- Words of four bytes each, from bytes numbered on from `a` (42_scheduler.md R144). -/
theorem toWords_map_range' (f : Nat → Byte) (a n : Nat) :
    Reference.toWords ((List.range' a (4 * n)).map f) =
      (List.range n).map fun t =>
        ofLanes (f (a + 4 * t)) (f (a + 4 * t + 1)) (f (a + 4 * t + 2)) (f (a + 4 * t + 3)) := by
  induction n generalizing a with
  | zero => rfl
  | succ n ih =>
    have four : (List.range' a (4 * (n + 1))).map f =
        f a :: f (a + 1) :: f (a + 2) :: f (a + 3) :: (List.range' (a + 4) (4 * n)).map f := rfl
    rw [four, Reference.toWords, ih, List.range_succ_eq_map, List.map_cons, List.map_map]
    refine congrArg _ (List.map_congr_left fun t _ => ?_)
    simp only [Function.comp_apply, Nat.succ_eq_add_one, show a + 4 + 4 * t = a + 4 * (t + 1) by omega]

/-- The bytes of block `b` among the first 64 * n. -/
theorem take_drop_range {b n : Nat} (h : b < n) :
    ((List.range (64 * n)).drop (64 * b)).take 64 = List.range' (64 * b) 64 := by
  refine List.ext_getElem ?_ fun i _ _ => by simp
  simp only [List.length_take, List.length_drop, List.length_range, List.length_range']
  omega

/-- The blocks of the reference are the padded words of a buffer that holds the message (41_padder.md R129). -/
theorem blocks_eq_blockWords {s : State} {msg : List Byte} (held : s.holdsMessage msg)
    (hL : s.Lq.toNat = msg.length) (hfits : msg.length ≤ s.params.msgCap) :
    Reference.blocks msg = (List.range (blocksOf msg.length)).map s.blockWords := by
  refine List.map_congr_left fun b hb => ?_
  rw [← padderComputesReferencePadding s msg held hL hfits, padLen_eq, ← List.map_drop, ← List.map_take,
    take_drop_range (List.mem_range.1 hb)]
  exact toWords_map_range' s.padByte (64 * b) 16

/-! ## From START to DONE -/

/-- A buffer that holds a message has all its bytes written. -/
theorem State.messageWritten_of_holdsMessage {s : State} {msg : List Byte} (held : s.holdsMessage msg) :
    s.messageWritten msg.length := fun i hi => by rw [Memory.written, held i hi]; rfl

/-- An accepted START on a buffer that holds the message, and the whole computation after it. -/
theorem computation_run {s t : State} {ignored : BitVec 28} {msg : List Byte} (hidle : s.status.busy = false)
    (he : s.events = []) (held : s.holdsMessage msg) (hlen : s.length.toNat = msg.length)
    (hfits : msg.length ≤ s.params.msgCap) (h : exec (.ctrlStart ignored) s = .next t) :
    ∃ v, BusyRun (115 * ((msg.length + 8) / 64 + 1)) t v ∧ v.H.toList = Reference.hashWords msg ∧ v.events = [] ∧
      v.pc.phase = 0#3 ∧ v.status.busy = false ∧ v.status.done = true := by
  have hcap := s.params.msgCap_le
  have ht : t = { s with
      Lq := s.length, NB := blocksOf msg.length, H := IV, pc := ⟨1#3, 0, 0⟩, status := ⟨true, false, false, 0#4⟩ } := by
    rw [exec_ctrlStart_of_idle hidle, hlen, if_neg (by omega), if_neg (by omega)] at h
    exact (Host.Outcome.next.inj h).symm
  have heldT : t.holdsMessage msg := by rw [ht]; exact held
  have hL : t.Lq.toNat = msg.length := by rw [ht]; exact hlen
  obtain ⟨v, run, hash, hev, hphase, hst⟩ := blocks_run ((msg.length + 8) / 64) (s := t) (by rw [ht])
    (by rw [ht]; exact he) (by rw [ht]) (by rw [hL]; exact State.messageWritten_of_holdsMessage heldT)
    (by rw [ht]; exact Nat.zero_add _)
  refine ⟨v, run, ?_, hev, hphase, by rw [hst]; rfl, by rw [hst]; rfl⟩
  rw [hash, Reference.hashWords, blocks_eq_blockWords heldT hL (by rw [ht]; exact hfits), List.range_eq_range', ht]
  rfl

/-- Settles O58: BUSY = 1 before each of the steps of the NB blocks, whose compressions are the reference hash; with
BUSY = 0 and no event pending nothing changes. -/
theorem computationTakesExactly115Steps : Obligations.ComputationTakesExactly115Steps := by
  unfold Obligations.ComputationTakesExactly115Steps
  intro s t ignored msg hidle he held hlen hfits h
  obtain ⟨v, ⟨busy, run⟩, hash, hev, hphase, hdown, hdone⟩ := computation_run hidle he held hlen hfits h
  refine ⟨busy, v, run, hdown, hdone, hphase, hash, fun k => ?digest, fun n => ?stays⟩
  case digest => rw [exec_rdDigest, State.digestView_of_done hdone, ← hash, getD_toList v.H k.isLt, State.reply]
  case stays => rw [run_add run, run_idle hev hdown]

end Sys2Proof.Machine
end

section
/-! PROOFS of the family other, the contract: the host's script computes SHA-256 of any message that fits
(00_scope.md section 5, 46_host_interface.md section 6, 44_serializer.md section 2). -/

namespace Sys2Proof.Machine

/-! ## The script as events (30_encoding.md R105, R106) -/

/-- The transaction that writes word `m` of a message. -/
def loadTransaction (msg : List Byte) (m : Nat) : Transaction :=
  ⟨.wr, BitVec.ofNat 32 (0x80000000 + 4 * m), messageWord msg m⟩

/-- HASH up to its POLL: the words of the message, the two halves of its length, START. -/
theorem scriptEvents_beginHash (msg : List Byte) :
    scriptEvents (scriptBeginHash msg) =
      (List.range' 0 ((msg.length + 3) / 4)).map (fun m => .host (loadTransaction msg m)) ++
        [.host ⟨.wr, 0x008#32, (BitVec.ofNat 64 msg.length).extractLsb' 0 32⟩,
          .host ⟨.wr, 0x00C#32, (BitVec.ofNat 64 msg.length).extractLsb' 32 32⟩,
          .host ⟨.wr, 0x000#32, 0x00000001#32⟩] := by
  simp [scriptEvents, scriptTransactions, scriptBeginHash, scriptLoadMsg, scriptSetLen, scriptStart,
    List.filterMap_map, Function.comp_def, ScriptLine.transaction?, loadTransaction, List.range_eq_range']

/-! ## Loading the message -/

/-- The write of a message word in the buffer decodes to its WR_MSG. -/
theorem decodeTransaction_load {p : Params} (msg : List Byte) {m : Nat} (hm : 4 * m < p.msgCap) :
    decodeTransaction p (loadTransaction msg m) = .wrMsg (BitVec.ofNat 29 m) (messageWord msg m) := by
  have hcap := p.msgCap_le
  have word : (BitVec.ofNat 29 m).toNat = m := by rw [BitVec.toNat_ofNat]; omega
  have off : BitVec.ofNat 32 (0x80000000 + 4 * m) = msgOffset (BitVec.ofNat 29 m) := by
    apply BitVec.eq_of_toNat_eq
    rw [msgOffset_toNat, word, BitVec.toNat_ofNat]
    omega
  rw [loadTransaction, off, decodeTransaction_wr, region_msgOffset (by rwa [word]), writeRow]

/-- The step that writes a message word. -/
theorem step_load {s : State} {msg : List Byte} {m : Nat} {rest : List Event}
    (he : s.events = .host (loadTransaction msg m) :: rest) (hidle : s.status.busy = false)
    (hm : 4 * m < s.params.msgCap) :
    step s = .next { s with events := rest, mem := s.mem.setWord (4 * m) (messageWord msg m) } := by
  have hcap := s.params.msgCap_le
  have word : (BitVec.ofNat 29 m).toNat = m := by rw [BitVec.toNat_ofNat]; omega
  rw [step_of_host he, decodeTransaction_load msg hm, exec_wrMsg, if_neg (Bool.eq_false_iff.1 hidle), word]

/-- Byte `i` of a message, as the word that holds it has it. -/
theorem lane_messageWord (msg : List Byte) (i : Nat) :
    lane (messageWord msg (i / 4)) (i % 4) = msg.getD i 0#8 := by
  have word := lane_ofLanes (fun j => msg.getD (4 * (i / 4) + j.val) 0#8) ⟨i % 4, by omega⟩
  simp only [show 4 * (i / 4) + i % 4 = i by omega] at word
  exact word

/-- The steps that write words `a` to `a + k - 1` store the bytes of these words and change nothing else. -/
theorem loads_run (k : Nat) {a : Nat} {s : State} {msg : List Byte} {rest : List Event}
    (he : s.events = (List.range' a k).map (fun m => .host (loadTransaction msg m)) ++ rest)
    (hidle : s.status.busy = false) (hfits : 4 * (a + k) < s.params.msgCap + 4) :
    ∃ mem, Host.Core.run core k s = .next { s with events := rest, mem := mem } ∧
      ∀ i, mem.get? i = if 4 * a ≤ i ∧ i < 4 * (a + k) then some (msg.getD i 0#8) else s.mem.get? i := by
  induction k generalizing a s with
  | zero =>
    have : s.events = rest := he
    exact ⟨s.mem, by rw [← this]; rfl, fun i => by rw [if_neg (by omega)]⟩
  | succ k ih =>
    have load := step_load (rest := (List.range' (a + 1) k).map (fun m => .host (loadTransaction msg m)) ++ rest) he
      hidle (by omega)
    obtain ⟨mem, run, stored⟩ := ih (a := a + 1) (s := { s with
      events := (List.range' (a + 1) k).map (fun m => .host (loadTransaction msg m)) ++ rest,
      mem := s.mem.setWord (4 * a) (messageWord msg a) }) rfl hidle (by simp only; omega)
    refine ⟨mem, by rw [run_succ load, run], fun i => ?_⟩
    rw [stored, Memory.get?_setWord]
    by_cases hword : 4 * a ≤ i ∧ i < 4 * a + 4
    · have byte := lane_messageWord msg i
      rw [show i / 4 = a by omega, show i % 4 = i - 4 * a by omega] at byte
      rw [if_neg (by omega), if_pos hword, byte, if_pos (by omega)]
    · rw [if_neg hword]
      exact if_congr (by omega) rfl rfl

/-! ## The length and START -/

/-- The step that writes LEN_LO. -/
theorem step_writeLenLo {s : State} {w : Word} {rest : List Event} (he : s.events = .host ⟨.wr, 0x008#32, w⟩ :: rest)
    (hidle : s.status.busy = false) : step s = .next { s with events := rest, lenLo := w } := by
  have decoded : decodeTransaction s.params ⟨.wr, 0x008#32, w⟩ = .wrLenLo w := decodeTransaction_wr s.params _ w
  rw [step_of_host he, decoded, exec_wrLenLo, if_neg (Bool.eq_false_iff.1 hidle)]

/-- The step that writes LEN_HI. -/
theorem step_writeLenHi {s : State} {w : Word} {rest : List Event} (he : s.events = .host ⟨.wr, 0x00C#32, w⟩ :: rest)
    (hidle : s.status.busy = false) : step s = .next { s with events := rest, lenHi := w } := by
  have decoded : decodeTransaction s.params ⟨.wr, 0x00C#32, w⟩ = .wrLenHi w := decodeTransaction_wr s.params _ w
  rw [step_of_host he, decoded, exec_wrLenHi, if_neg (Bool.eq_false_iff.1 hidle)]

/-- The two steps of SETLEN. -/
theorem setLen_run {s : State} {lo hi : Word} {rest : List Event}
    (he : s.events = .host ⟨.wr, 0x008#32, lo⟩ :: .host ⟨.wr, 0x00C#32, hi⟩ :: rest)
    (hidle : s.status.busy = false) :
    Host.Core.run core 2 s = .next { s with events := rest, lenLo := lo, lenHi := hi } := by
  have second := step_writeLenHi (s := { s with events := .host ⟨.wr, 0x00C#32, hi⟩ :: rest, lenLo := lo }) rfl hidle
  exact (run_succ (step_writeLenLo he hidle) 1).trans (run_succ second 0)

/-- The step that writes START. -/
theorem step_writeStart {s : State} {rest : List Event}
    (he : s.events = .host ⟨.wr, 0x000#32, 0x00000001#32⟩ :: rest) :
    step s = exec (.ctrlStart 0#28) { s with events := rest } := by
  have decoded : decodeTransaction s.params ⟨.wr, 0x000#32, 0x00000001#32⟩ = .ctrlStart 0#28 :=
    (decodeTransaction_wr s.params _ _).trans (decodeCommand_append 0#28 0x1#4)
  rw [step_of_host he, decoded]

/-- A length from its two halves. -/
theorem halves_append (v : BitVec 64) : (v.extractLsb' 32 32 ++ v.extractLsb' 0 32 : BitVec 64) = v :=
  BitVec.extractLsb'_append_extractLsb' (w := 32) (len := 32)

/-- The script up to START: the buffer holds the message and LEN its length, and only START is pending. -/
theorem script_run {s : State} {msg : List Byte} (he : s.events = scriptEvents (scriptBeginHash msg))
    (hidle : s.status.busy = false) (hfits : msg.length ≤ s.params.msgCap) :
    ∃ u, Host.Core.run core ((msg.length + 3) / 4 + 2) s = .next u ∧
      u.events = [.host ⟨.wr, 0x000#32, 0x00000001#32⟩] ∧ u.status = s.status ∧ u.params = s.params ∧
      u.holdsMessage msg ∧ u.length.toNat = msg.length := by
  have hcap := s.params.msgCap_le
  rw [scriptEvents_beginHash] at he
  obtain ⟨mem, loads, stored⟩ := loads_run _ he hidle (by omega)
  refine ⟨_, (run_add loads 2).trans (setLen_run rfl hidle), rfl, rfl, rfl, fun i h => ?held, ?length⟩
  case held =>
    rw [stored, if_pos (by omega), List.getD_eq_getElem?_getD, List.getElem?_eq_getElem h, Option.getD_some]
  case length => rw [State.length, halves_append, BitVec.toNat_ofNat, Nat.mod_eq_of_lt (by omega)]

/-! ## The views of a digest (44_serializer.md R190 to R194) -/

theorem block_index_lt {m n : Nat} (i : Fin n) (j : Fin m) : m * i.val + j.val < m * n :=
  calc m * i.val + j.val < m * (i.val + 1) := by rw [Nat.mul_succ]; omega
    _ ≤ m * n := Nat.mul_le_mul_left m i.isLt

/-- A list of `m * n` elements, made `m` at a time from `n`. -/
theorem flatMap_ofFn {α β : Type} {m n : Nat} (f : Fin n → α) (g : α → List β) (h : Fin (m * n) → β)
    (hg : ∀ i : Fin n, g (f i) = List.ofFn fun j : Fin m => h ⟨m * i.val + j.val, block_index_lt i j⟩) :
    (List.ofFn f).flatMap g = List.ofFn h := by
  rw [List.ofFn_mul', List.flatMap_def, List.map_ofFn]
  exact congrArg (fun l => (List.ofFn l).flatten) (funext hg)

/-- Four elements of a list from a multiple of four. -/
theorem take_drop_ofFn {β : Type} {n : Nat} (f : Fin (4 * n) → β) (k : Fin n) :
    ((List.ofFn f).drop (4 * k.val)).take 4 = List.ofFn fun j : Fin 4 => f ⟨4 * k.val + j.val, block_index_lt k j⟩ := by
  refine List.ext_getElem ?_ fun i _ _ => by
    rw [List.getElem_take, List.getElem_drop, List.getElem_ofFn, List.getElem_ofFn]
  simp only [List.length_take, List.length_drop, List.length_ofFn]
  omega

theorem toList_eq_ofFn (H : Vector Word 8) : H.toList = List.ofFn fun k : Fin 8 => H[k.val] :=
  List.ext_getElem (by simp) fun i _ _ => by rw [Vector.getElem_toList, List.getElem_ofFn]

/-- The digest bytes of the reference are those of ENCODE(H) (44_serializer.md R190). -/
theorem digest_eq_ofFn {H : Vector Word 8} {msg : List Byte} (h : H.toList = Reference.hashWords msg) :
    Reference.digest msg = List.ofFn (digestByte H) := by
  rw [Reference.digest, ← h, toList_eq_ofFn]
  refine flatMap_ofFn (m := 4) (n := 8) _ _ (digestByte H) fun k => ?_
  simp only [digestByte_eq_lane]
  rfl

/-- The two characters of a digest byte (44_serializer.md R193). -/
theorem hexStrChar_pair (H : Vector Word 8) (i : Fin 32) :
    hexStrChar H ⟨2 * i.val + 0, by omega⟩ = hexChar ((digestByte H i).extractLsb' 4 4) ∧
    hexStrChar H ⟨2 * i.val + 1, by omega⟩ = hexChar ((digestByte H i).extractLsb' 0 4) := by
  constructor
  · simp only [hexStrChar, show (2 * i.val + 0) / 2 = i.val by omega, show (2 * i.val + 0) % 2 = 0 by omega, if_true]
  · simp only [hexStrChar, show (2 * i.val + 1) / 2 = i.val by omega, show (2 * i.val + 1) % 2 = 1 by omega,
      Nat.one_ne_zero, if_false]

/-- The characters of the reference are those of HEXSTR (44_serializer.md R193). -/
theorem digestHex_eq_ofFn {H : Vector Word 8} {msg : List Byte} (h : H.toList = Reference.hashWords msg) :
    Reference.digestHex msg = List.ofFn (hexStrChar H) := by
  rw [Reference.digestHex, digest_eq_ofFn h]
  refine flatMap_ofFn (m := 2) (n := 32) _ _ (hexStrChar H) fun i => ?_
  obtain ⟨high, low⟩ := hexStrChar_pair H i
  rw [← high, ← low]
  rfl

/-- The lanes of DIGEST_k are digest bytes 4k to 4k + 3. -/
theorem digestView_lanes {s : State} {msg : List Byte} (hdone : s.status.done = true)
    (h : s.H.toList = Reference.hashWords msg) (k : Fin 8) :
    [lane (s.digestView k) 0, lane (s.digestView k) 1, lane (s.digestView k) 2, lane (s.digestView k) 3] =
      ((Reference.digest msg).drop (4 * k.val)).take 4 := by
  rw [digest_eq_ofFn h, take_drop_ofFn (n := 8) (digestByte s.H) k, State.digestView_of_done hdone]
  simp only [digestByte_eq_lane]
  rfl

/-- The lanes of HEX_j are characters 4j to 4j + 3 of the digest. -/
theorem hexView_lanes {s : State} {msg : List Byte} (hdone : s.status.done = true)
    (h : s.H.toList = Reference.hashWords msg) (j : Fin 16) :
    [lane (s.hexView j) 0, lane (s.hexView j) 1, lane (s.hexView j) 2, lane (s.hexView j) 3] =
      ((Reference.digestHex msg).drop (4 * j.val)).take 4 := by
  rw [digestHex_eq_ofFn h, take_drop_ofFn (n := 16) (hexStrChar s.H) j]
  simp only [← State.hexView_lane hdone j]
  rfl

/-- Settles O59: the script leaves the message, its length and a START, whose computation leaves the reference hash in
H; the views are its bytes and its characters. -/
theorem hashScriptComputesSha256 : Obligations.HashScriptComputesSha256 := by
  unfold Obligations.HashScriptComputesSha256
  intro s msg hidle hfits he
  obtain ⟨u, script, pending, hst, hparams, held, hlen⟩ := script_run he hidle hfits
  have hidleU : u.status.busy = false := by rw [hst, hidle]
  obtain ⟨t, hstart⟩ := exec_host_next { u with events := [] } (i := .ctrlStart 0#28) rfl
  obtain ⟨v, ⟨-, run⟩, hash, -, -, hdown, hdone⟩ := computation_run (s := { u with events := [] }) hidleU rfl held hlen
    (by rw [hparams]; exact hfits) hstart
  have started := run_succ ((step_writeStart pending).trans hstart)
  exact ⟨_, v, (run_add script _).trans ((started _).trans run), hdown, hdone,
    fun k => ⟨_, exec_rdDigest k v, digestView_lanes hdone hash k⟩,
    fun j => ⟨_, exec_rdHex j v, hexView_lanes hdone hash j⟩⟩

end Sys2Proof.Machine
end
